-- ==== Sys2Proof/Word.lean ====
section
/-! DEFINITION. The word of the block: every register, operand and result is 64 bits wide (00_scope.md R5 `W`, R6). -/

namespace Sys2Proof

/-- A register or data-port value, bit 0 least significant (00_scope.md R6, 20_memory.md R41). -/
abbrev Word := BitVec 64

/-- One byte of a byte-addressed platform bus (20_memory.md R41, R42). The block itself has no bytes. -/
abbrev Byte := BitVec 8

/-- `MAX`, the largest value of `U64` (00_scope.md R5). -/
def maxU64 : Nat := 18446744073709551615

end Sys2Proof
end

