-- ==== Sys2Proof/Syntax.lean ====
section
/-! DEFINITION. The syntax: the ten commands, the registers by name, what a host may do, whose turn it is, the error
kinds, and the notation in which the spec writes host programs. -/

namespace Sys2Proof

/-- The ten commands (30_encoding.md R62). A command word has no operand field (R60, R61): the operands are the registers
`A`, `B`, `M`. -/
inductive Instr where
  | addmod
  | submod
  | mulmod
  | powmod
  | egcd
  | modinv
  | divmod
  | isprime
  | isqrt
  | issquare
  deriving DecidableEq, Repr

/-- The eight registers of the register file (10_state.md R10, 00_scope.md R8). -/
inductive Reg where
  | a
  | b
  | m
  | cmd
  | status
  | r0
  | r1
  | r2
  deriving DecidableEq, Repr

/-- The error kinds of an outcome (60_exceptions.md R160). -/
inductive ErrKind where
  | divideByZero
  | noInverse
  | illegalCommand
  deriving DecidableEq, Repr

/-- What the host does at its port when it gets a turn.
`wr` and `rd` are the two host actions (20_memory.md R40).
`wait` is the polling loop `WAIT` (30_encoding.md R68): one turn is one `RD STATUS`, and the action stays the host's
next action until a read has returned `BUSY = 0`.
`busWr` and `busRd` are accesses through a platform's byte-addressed bus (20_memory.md R41, R42): the lowest byte address
of the access, and the bytes of a write from that address up or the width of a read in bytes. -/
inductive HostAction where
  | wr (r : Reg) (v : Word)
  | rd (r : Reg)
  | wait
  | busWr (address : Nat) (bytes : List Byte)
  | busRd (address : Nat) (width : Nat)
  deriving DecidableEq, Repr

/-- What a host read returned: through the port the register and its value (10_state.md R34), through a platform's bus
the address and the bytes from it up (20_memory.md R41). -/
inductive Reply where
  | port (r : Reg) (v : Word)
  | bus (address : Nat) (bytes : List Byte)
  deriving DecidableEq, Repr

/-- Who moves in an event of the total order (20_memory.md R47, R52): the host, the engine, or the reset source
(70_reset_and_hazards.md R190). -/
inductive Turn where
  | host
  | engine
  | reset
  deriving DecidableEq, Repr

/-- A call of one of the source's functions, written as a pseudo-instruction (30_encoding.md R68). -/
inductive Call where
  | addMod (a b m : Word)
  | subMod (a b m : Word)
  | mulMod (a b m : Word)
  | powMod (a e m : Word)
  | extendedEuclid (a b m : Word)
  | modInverse (a m : Word)
  | divMod (a b m : Word)
  | isPrime (t : Word)
  | isqrt (x : Word)
  | isSquare (x : Word)
  deriving DecidableEq, Repr

/-- One line of a host program (30_encoding.md R67, R68). The literal of a `WR` line is a number, which must fit 64
bits. -/
inductive HostLine where
  | wr (r : Reg) (value : Nat)
  | rd (r : Reg)
  | cmd (i : Instr)
  | wait
  | clrOvr
  | call (c : Call)
  deriving DecidableEq, Repr

end Sys2Proof
end

