-- ==== Sys2Proof/Config.lean ====
section
/-! DEFINITION. What an implementation or a platform fixes: the OPEN witness bounds `WB[0..10]`, and the OPEN `BASE` and
`BYTE_MAP` of a byte-addressed bus. State carries them as arguments of the model. The other OPEN parameters, `LAT` and
`RESET_SOURCE`, are the list `turns` of State. -/

namespace Sys2Proof

/-- The OPEN part `WB[0..10]` of the witness table, in order (00_scope.md R5, 10_state.md R25). -/
abbrev OpenBounds := Vector Word 11

/-- PRESUMED (unsafe, log entry 7). The values 10_state.md R25 recommends for `WB[0..10]`, "from general knowledge, not
in source". Only `State.reset` uses them; an instruction reads the bounds that State holds. -/
def recommendedBounds : OpenBounds :=
  #v[2047, 1373653, 25326001, 3215031751, 2152302898747, 3474749660383, 341550071728321, 341550071728321,
     3825123056546413051, 3825123056546413051, 3825123056546413051]

/-- What a `BYTE_MAP` puts in one eight-byte slot of the bus (20_memory.md R41): the register that stands there, and for
each bit `k` of that register its place in the slot. Place `p` is bit `p % 8` of the byte `p / 8` above the slot's lowest
address. -/
structure BusSlot where
  reg : Reg
  place : Vector (Fin 64) 64
  deriving DecidableEq, Repr

/-- How a platform puts the registers on a byte-addressed bus: the OPEN parameter `BASE` (20_memory.md R44) and the OPEN
parameter `BYTE_MAP` (R41), slot `j` being the eight bytes at offset `8·j` from the base (R42). -/
structure BusMap where
  base : Nat
  slots : Vector BusSlot 8
  deriving DecidableEq, Repr

/-- The slot of a register whose bits 7:0 are at the lowest address (20_memory.md R41). -/
def littleEndianSlot (r : Reg) : BusSlot := ⟨r, Vector.ofFn id⟩

/-- The `BYTE_MAP` that 20_memory.md R41 recommends: register `i` at offset `8·i`, little-endian. Only `State.reset` uses
it (DESIGN CHOICE, log entry 8); a bus access reads the map that State holds. -/
def recommendedByteMap : Vector BusSlot 8 :=
  #v[littleEndianSlot .a, littleEndianSlot .b, littleEndianSlot .m, littleEndianSlot .cmd,
     littleEndianSlot .status, littleEndianSlot .r0, littleEndianSlot .r1, littleEndianSlot .r2]

end Sys2Proof
end

