-- ==== Sys2Proof/WellFormed.lean ====
section
/-! DEFINITION. What a well-formed term of the syntax is. -/

namespace Sys2Proof

/-- Every command is well-formed: a command word has no operand, immediate or mode field to go wrong (30_encoding.md
R60, R61). -/
def Instr.wf : Instr → Bool
  | .addmod => true
  | .submod => true
  | .mulmod => true
  | .powmod => true
  | .egcd => true
  | .modinv => true
  | .divmod => true
  | .isprime => true
  | .isqrt => true
  | .issquare => true

/-- The only bus accesses the block defines are 64-bit accesses at offsets `8·i` from `BASE`, `i` in 0..7 (20_memory.md
R42, R44). -/
def wholeRegister (base address width : Nat) : Bool :=
  base ≤ address && (address - base) % 8 == 0 && address - base < 64 && width == 8

/-- No two bits of the register share a place, so every bit of it is on the bus (20_memory.md R41). -/
def BusSlot.wf (slot : BusSlot) : Prop := ∀ k l : Fin 64, slot.place[k] = slot.place[l] → k = l

/-- Every slot is well-formed and every register stands in a slot (20_memory.md R41, R44). -/
def BusMap.wf (bus : BusMap) : Prop := (∀ j : Fin 8, bus.slots[j].wf) ∧ ∀ r : Reg, ∃ j : Fin 8, bus.slots[j].reg = r

/-- A host action the block gives a meaning: any action at the register interface, where a misaligned access cannot be
expressed, and a bus access of one whole register, the registers standing at `base` (20_memory.md R42, R43, R44). -/
def HostAction.wf (base : Nat) : HostAction → Bool
  | .wr _ _ => true
  | .rd _ => true
  | .wait => true
  | .busWr address bytes => wholeRegister base address bytes.length
  | .busRd address width => wholeRegister base address width

/-- A literal is "of at most 64 bits" (30_encoding.md R67). -/
def HostLine.wf : HostLine → Bool
  | .wr _ value => value ≤ maxU64
  | .rd _ => true
  | .cmd i => i.wf
  | .wait => true
  | .clrOvr => true
  | .call _ => true

end Sys2Proof
end

