-- ==== Sys2Proof/Decode.lean ====
section
/-! DEFINITION. The command word and its decoder, total on every 64-bit word, rejecting by name; then the encoder, and
the encoding and expansion of host program lines. -/

namespace Sys2Proof

/-- Why a command word selects no command (30_encoding.md R64). -/
inductive DecodeReject where
  /-- Bits 63:4 are not all zero. -/
  | zeroFieldSet
  /-- Bits 63:4 are zero and `OPC` is 0x0 or one of 0xB to 0xF. -/
  | unassignedOpcode
  deriving DecidableEq, Repr

/-- What the decoder answers. -/
inductive Decoded where
  | command (i : Instr)
  | illegal (why : DecodeReject)
  deriving DecidableEq, Repr

/-- The field `OPC`, bits 3:0 (30_encoding.md R60). -/
def opcField (w : Word) : BitVec 4 := w.extractLsb' 0 4

/-- The field `ZERO`, bits 63:4 (30_encoding.md R60). -/
def zeroField (w : Word) : BitVec 60 := w.extractLsb' 4 60

/-- The opcode map (30_encoding.md R62, R63). -/
def commandOfOpc (opc : BitVec 4) : Option Instr :=
  match opc.toNat with
  | 0x1 => some .addmod
  | 0x2 => some .submod
  | 0x3 => some .mulmod
  | 0x4 => some .powmod
  | 0x5 => some .egcd
  | 0x6 => some .modinv
  | 0x7 => some .divmod
  | 0x8 => some .isprime
  | 0x9 => some .isqrt
  | 0xA => some .issquare
  | _ => none

/-- The dispatch of 30_encoding.md R63: first `ZERO`, then `OPC`. -/
def decode (w : Word) : Decoded :=
  if zeroField w ≠ 0 then .illegal .zeroFieldSet
  else
    match commandOfOpc (opcField w) with
    | some i => .command i
    | none => .illegal .unassignedOpcode

/-- The opcode column of 30_encoding.md R62. -/
def Instr.opc : Instr → BitVec 4
  | .addmod => 0x1
  | .submod => 0x2
  | .mulmod => 0x3
  | .powmod => 0x4
  | .egcd => 0x5
  | .modinv => 0x6
  | .divmod => 0x7
  | .isprime => 0x8
  | .isqrt => 0x9
  | .issquare => 0xA

/-- The command word of a command: `ZERO` zero, `OPC` its opcode (30_encoding.md R60, R62). -/
def encode (i : Instr) : Word := 0#60 ++ i.opc

/-- The command the decoder reads from a word of `nbits` bits (every higher bit 0), if it reads one. -/
def decodeTableWord (nbits w : Nat) : Option Instr :=
  if w % 2 ^ nbits ≤ maxU64 then
    match decode (BitVec.ofNat 64 (w % 2 ^ nbits)) with
    | .command i => some i
    | .illegal _ => none
  else none

/-- The 3-bit index of a register (10_state.md R10, 20_memory.md R44). -/
def Reg.index : Reg → BitVec 3
  | .a => 0
  | .b => 1
  | .m => 2
  | .cmd => 3
  | .status => 4
  | .r0 => 5
  | .r1 => 6
  | .r2 => 7

/-- The register at an index: all eight indices are implemented (20_memory.md R44). -/
def Reg.ofIndex (i : BitVec 3) : Reg :=
  match i.toNat with
  | 0 => .a
  | 1 => .b
  | 2 => .m
  | 3 => .cmd
  | 4 => .status
  | 5 => .r0
  | 6 => .r1
  | _ => .r2

/-- The "encoding" of a line: action (a write or a read), register index, and for a write the 64-bit data
(30_encoding.md R67). -/
structure PortTriple where
  isWrite : Bool
  index : BitVec 3
  data : Option Word
  deriving DecidableEq, Repr

/-- The triple of a primitive host action (30_encoding.md R67). A `wait` is a loop of reads and a bus access is the
platform's: neither is one triple. -/
def HostAction.triple : HostAction → Option PortTriple
  | .wr r v => some ⟨true, r.index, some v⟩
  | .rd r => some ⟨false, r.index, none⟩
  | .wait => none
  | .busWr _ _ => none
  | .busRd _ _ => none

/-- The host action of a triple; a write without data and a read with data are no triples of 30_encoding.md R67. -/
def PortTriple.action : PortTriple → Option HostAction
  | ⟨true, i, some v⟩ => some (.wr (Reg.ofIndex i) v)
  | ⟨false, i, none⟩ => some (.rd (Reg.ofIndex i))
  | ⟨true, _, none⟩ => none
  | ⟨false, _, some _⟩ => none

/-- `CMD mnemonic` is `WR CMD, v` with `v` the mnemonic's command word (30_encoding.md R67). -/
def issue (i : Instr) : HostAction := .wr .cmd (encode i)

/-- The command a call issues (30_encoding.md R62, R68). -/
def Call.instr : Call → Instr
  | .addMod _ _ _ => .addmod
  | .subMod _ _ _ => .submod
  | .mulMod _ _ _ => .mulmod
  | .powMod _ _ _ => .powmod
  | .extendedEuclid _ _ _ => .egcd
  | .modInverse _ _ => .modinv
  | .divMod _ _ _ => .divmod
  | .isPrime _ => .isprime
  | .isqrt _ => .isqrt
  | .isSquare _ => .issquare

/-- The operand writes of a call, in the order of its expansion (30_encoding.md R68). -/
def Call.loads : Call → List HostAction
  | .addMod a b m => [.wr .a a, .wr .b b, .wr .m m]
  | .subMod a b m => [.wr .a a, .wr .b b, .wr .m m]
  | .mulMod a b m => [.wr .a a, .wr .b b, .wr .m m]
  | .powMod a e m => [.wr .a a, .wr .b e, .wr .m m]
  | .extendedEuclid a b m => [.wr .a a, .wr .b b, .wr .m m]
  | .modInverse a m => [.wr .a a, .wr .m m]
  | .divMod a b m => [.wr .a a, .wr .b b, .wr .m m]
  | .isPrime t => [.wr .a t]
  | .isqrt x => [.wr .a x]
  | .isSquare x => [.wr .a x]

/-- The result registers a call reads at its end: `R0`, and for `extendedEuclid` all three (30_encoding.md R68). -/
def Call.results : Call → List Reg
  | .addMod _ _ _ => [.r0]
  | .subMod _ _ _ => [.r0]
  | .mulMod _ _ _ => [.r0]
  | .powMod _ _ _ => [.r0]
  | .extendedEuclid _ _ _ => [.r0, .r1, .r2]
  | .modInverse _ _ => [.r0]
  | .divMod _ _ _ => [.r0]
  | .isPrime _ => [.r0]
  | .isqrt _ => [.r0]
  | .isSquare _ => [.r0]

/-- The expansion of a call: load the operands, issue the command, `WAIT`, read the results (30_encoding.md R68). -/
def Call.expand (c : Call) : List HostAction :=
  c.loads ++ [issue c.instr, .wait] ++ c.results.map HostAction.rd

/-- The host actions of a line (30_encoding.md R67, R68). -/
def HostLine.expand : HostLine → List HostAction
  | .wr r value => [.wr r (BitVec.ofNat 64 value)]
  | .rd r => [.rd r]
  | .cmd i => [issue i]
  | .wait => [.wait]
  | .clrOvr => [.wr .status 0x10]
  | .call c => c.expand

/-- The host actions of a program, line after line (20_memory.md R46). -/
def expandProgram (lines : List HostLine) : List HostAction := lines.flatMap HostLine.expand

end Sys2Proof
end

