-- ==== Sys2Proof/Machine/State.lean ====
section
/-! DEFINITION. The state of the block, the reasons a step can stop, the outcome of a command, and the state after
reset. -/

namespace Sys2Proof.Machine

/-- Reasons for which the machine stops with a fault: NONE. An error of this block is an outcome reported in
`STATUS.ERR`, after which the machine goes on (60_exceptions.md R160, R167, R168), and every command is total
(10_state.md R33). -/
inductive Fault
  deriving DecidableEq, Repr

/-- Reasons for which the model gives an event no meaning. -/
inductive Refusal where
  /-- An instruction without a meaning yet. Raised by refused arms of `exec` only; `exec` has none. Safe: the model
  stops. -/
  | notModelled (mnemonic : String)
  /-- A bus access that is not one whole register: another offset or another width. Raised by a host turn. Safe: "what
  the platform does with any other offset or width (bus error, ignore) is outside the block, and a model should refuse
  such an access rather than give it a meaning" (20_memory.md R42). -/
  | partialBusAccess
  deriving DecidableEq, Repr

/-- The outcome of a command (00_scope.md R8, R9; 10_state.md R33): one value for `R0`, three values for `R0`, `R1`,
`R2`, or an error kind. -/
inductive CmdOutcome where
  | ok1 (v0 : Word)
  | ok3 (v0 v1 v2 : Word)
  | err (k : ErrKind)
  deriving DecidableEq, Repr

/-- The register file `x[0..7]`, indices 0 to 7 in this order (10_state.md R10). -/
structure Regs where
  /-- `A`, index 0: first operand (10_state.md R11). -/
  a : Word
  /-- `B`, index 1: second operand or exponent (10_state.md R11). -/
  b : Word
  /-- `M`, index 2: modulus (10_state.md R11). -/
  m : Word
  /-- `CMD`, index 3: the last accepted command word (10_state.md R16). -/
  cmd : Word
  /-- `STATUS`, index 4: `BUSY` 0, `DONE` 1, `ERR` 3:2, `OVR` 4 (10_state.md R17). -/
  status : Word
  /-- `R0`, index 5: result 0 (10_state.md R12). -/
  r0 : Word
  /-- `R1`, index 6: result 1 (10_state.md R12). -/
  r1 : Word
  /-- `R2`, index 7: result 2 (10_state.md R12). -/
  r2 : Word
  deriving DecidableEq, Repr

/-- The register file, the OPEN part of the witness table, and the block's surroundings as plain data: what the host
will do, whose turn it is, and what the host has read. -/
structure State extends Regs where
  /-- `WB[0..10]`, the OPEN parameter `WB` (10_state.md R25). Read by ISPRIME, written by nothing (10_state.md R23).
  DESIGN CHOICE (safe, log entry 7): the parameter is carried in State. -/
  bounds : OpenBounds
  /-- `BASE` and `BYTE_MAP`, the OPEN parameters of a platform's byte-addressed bus (20_memory.md R41, R44;
  93_implementation_defined.md S4). Read by bus accesses only, written by nothing. DESIGN CHOICE (safe, log entry 8): the
  parameters are carried in State. -/
  bus : BusMap
  /-- The host's remaining actions, in program order (20_memory.md R46). DESIGN CHOICE (safe, log entry 4). -/
  script : List HostAction
  /-- Who moves next: the open latency `LAT` and the open `RESET_SOURCE` as plain data (20_memory.md R47, R52;
  93_implementation_defined.md S3, S5). DESIGN CHOICE (safe, log entry 2). -/
  turns : List Turn
  /-- What the host's reads have returned, oldest first (10_state.md R34). DESIGN CHOICE (safe, log entry 6). -/
  replies : List Reply
  deriving DecidableEq, Repr

/-- Every register is zero after reset (10_state.md R36). -/
def Regs.reset : Regs := ⟨0, 0, 0, 0, 0, 0, 0, 0⟩

/-- The machine right after reset: every register zero (10_state.md R36). The witness bounds are PRESUMED, the
recommended ones (log entry 7); the bus map is the recommended one at base 0 (DESIGN CHOICE, log entry 8); the script, the turns and the replies are empty (DESIGN CHOICE, log entries 2, 4, 6). -/
def State.reset : State where
  toRegs := Regs.reset
  bounds := recommendedBounds
  bus := ⟨0, recommendedByteMap⟩
  script := []
  turns := []
  replies := []

end Sys2Proof.Machine
end

