-- ==== Sys2Proof/Machine/Flags.lean ====
section
/-! DEFINITION. The register `STATUS`: its fields, the codes of `ERR`, and the four ways it changes. -/

namespace Sys2Proof.Machine

/-- `BUSY`, bit 0 (10_state.md R17, R18). -/
def statusBusy (w : Word) : Bool := w.getLsbD 0

/-- `DONE`, bit 1 (10_state.md R17, R19). -/
def statusDone (w : Word) : Bool := w.getLsbD 1

/-- `ERR`, bits 3:2 (10_state.md R17, R20). -/
def statusErr (w : Word) : BitVec 2 := w.extractLsb' 2 2

/-- `OVR`, bit 4 (10_state.md R17, R21). -/
def statusOvr (w : Word) : Bool := w.getLsbD 4

/-- The reserved bits 63:5 (10_state.md R17). -/
def statusReserved (w : Word) : BitVec 59 := w.extractLsb' 5 59

/-- What a read of `STATUS` returns: the four fields, bits 63:5 zero (10_state.md R17, R34). -/
def statusVisible (w : Word) : Word := w &&& 0x1F

/-- `ERR = 0`: the outcome was `Ok` (10_state.md R20). -/
def errNone : BitVec 2 := 0

/-- The code of an error kind (10_state.md R20, R33). -/
def errCode : ErrKind → BitVec 2
  | .divideByZero => 1
  | .noInverse => 2
  | .illegalCommand => 3

/-- Command accept: `BUSY <- 1`, `DONE <- 0`, `ERR <- 0`, nothing else (10_state.md R31). -/
def statusAccept (w : Word) : Word := (w &&& ~~~(0xF : Word)) ||| 0x1

/-- Completion with code `e`: `BUSY <- 0`, `DONE <- 1`, `ERR <- e`, nothing else (10_state.md R33). -/
def statusComplete (w : Word) (e : BitVec 2) : Word := (w &&& ~~~(0xF : Word)) ||| 0x2 ||| (e.setWidth 64 <<< 2)

/-- `OVR <- 1`, nothing else (10_state.md R32). -/
def statusOverrun (w : Word) : Word := w ||| 0x10

/-- A host write of `v` to `STATUS`: `OVR <- 0` if `v[4] = 1`, nothing else (10_state.md R35). -/
def statusHostWrite (w v : Word) : Word := if v.getLsbD 4 then w &&& ~~~(0x10 : Word) else w

/-- `STATUS.BUSY` of a state. -/
def State.busy (s : State) : Bool := statusBusy s.status

/-- `STATUS.DONE` of a state. -/
def State.done (s : State) : Bool := statusDone s.status

/-- `STATUS.ERR` of a state. -/
def State.err (s : State) : BitVec 2 := statusErr s.status

/-- `STATUS.OVR` of a state. -/
def State.ovr (s : State) : Bool := statusOvr s.status

end Sys2Proof.Machine
end

