-- ==== Sys2Proof/Machine/Operands.lean ====
section
/-! DEFINITION. The operands of a command: the full contents of `A`, `B`, `M` read as unsigned numbers, in fixed roles,
and the registers and error kinds each command names. -/

namespace Sys2Proof.Machine

/-- `A` as a number: the first operand (10_state.md R13, 30_encoding.md R61). -/
def State.operandA (s : State) : Nat := s.a.toNat

/-- `B` as a number: the second operand or the exponent (10_state.md R13, 30_encoding.md R61). -/
def State.operandB (s : State) : Nat := s.b.toNat

/-- `M` as a number: the modulus (10_state.md R13, 30_encoding.md R61). -/
def State.modulus (s : State) : Nat := s.m.toNat

/-- A number of `U64` as the word that carries it (00_scope.md R6). -/
def toWord (n : Nat) : Word := BitVec.ofNat 64 n

/-- A Boolean result: `true` is 1, `false` is 0, bits 63:1 zero (00_scope.md R6, 30_encoding.md R61). -/
def boolWord (v : Bool) : Word := if v then 1 else 0

/-- The registers the outcome of a command depends on (10_state.md R13). ISPRIME also reads the witness table. -/
def readsOf : Instr → List Reg
  | .addmod => [.a, .b, .m]
  | .submod => [.a, .b, .m]
  | .mulmod => [.a, .b, .m]
  | .powmod => [.a, .b, .m]
  | .egcd => [.a, .b, .m]
  | .modinv => [.a, .m]
  | .divmod => [.a, .b, .m]
  | .isprime => [.a]
  | .isqrt => [.a]
  | .issquare => [.a]

/-- The registers an `Ok` outcome of a command writes, `STATUS` aside (10_state.md R13). -/
def writesOf : Instr → List Reg
  | .addmod => [.r0]
  | .submod => [.r0]
  | .mulmod => [.r0]
  | .powmod => [.r0]
  | .egcd => [.r0, .r1, .r2]
  | .modinv => [.r0]
  | .divmod => [.r0]
  | .isprime => [.r0]
  | .isqrt => [.r0]
  | .issquare => [.r0]

/-- The error kinds a command can raise (10_state.md R13, 60_exceptions.md R160). -/
def errorsOf : Instr → List ErrKind
  | .addmod => [.divideByZero]
  | .submod => [.divideByZero]
  | .mulmod => [.divideByZero]
  | .powmod => [.divideByZero]
  | .egcd => [.divideByZero]
  | .modinv => [.divideByZero, .noInverse]
  | .divmod => [.divideByZero, .noInverse]
  | .isprime => []
  | .isqrt => []
  | .issquare => []

end Sys2Proof.Machine
end

