-- ==== Sys2Proof/Machine/Ops.lean ====
section
/-! DEFINITION. The operations every event is made of: reading a register, the host's writes, accepting a command, an
error's entry, completion, reset, and the byte map of a platform's bus. -/

namespace Sys2Proof.Machine

/-- The value register `r` reads as (10_state.md R34). -/
def State.readReg (s : State) : Reg → Word
  | .a => s.a
  | .b => s.b
  | .m => s.m
  | .cmd => s.cmd
  | .status => statusVisible s.status
  | .r0 => s.r0
  | .r1 => s.r1
  | .r2 => s.r2

/-- Accepting the command word `v`: `CMD <- v`, `BUSY <- 1`, `DONE <- 0`, `ERR <- 0` (10_state.md R31). It is also what
ends an error: there is no return instruction, and the next accept clears `ERR` (60_exceptions.md R168). -/
def State.accept (s : State) (v : Word) : State :=
  { s with cmd := v, status := statusAccept s.status }

/-- A write that meets `BUSY = 1` is dropped and leaves its mark in `OVR` (10_state.md R32). -/
def State.dropWrite (s : State) : State :=
  { s with status := statusOverrun s.status }

/-- The host action `WR r, v` (20_memory.md R40; 10_state.md R30, R31, R32, R35). -/
def State.hostWrite (s : State) (r : Reg) (v : Word) : State :=
  match r with
  | .a => if s.busy then s.dropWrite else { s with a := v }
  | .b => if s.busy then s.dropWrite else { s with b := v }
  | .m => if s.busy then s.dropWrite else { s with m := v }
  | .cmd => if s.busy then s.dropWrite else s.accept v
  | .status => { s with status := statusHostWrite s.status v }
  | .r0 => s
  | .r1 => s
  | .r2 => s

/-- The host action `RD r`: the port returns the register's value and no register changes (10_state.md R34). -/
def State.hostRead (s : State) (r : Reg) : State :=
  { s with replies := s.replies ++ [.port r (s.readReg r)] }

/-- "Trap entry": a command that ends with error kind `k` changes exactly `ERR <- code`, `BUSY <- 0`, `DONE <- 1`
(60_exceptions.md R164, R167; 10_state.md R12, R33). Nothing is saved and nothing is redirected. -/
def State.takeError (s : State) (k : ErrKind) : State :=
  { s with status := statusComplete s.status (errCode k) }

/-- `COMPLETE` with a given outcome, all its writes together (10_state.md R33). -/
def State.complete (s : State) : CmdOutcome → State
  | .ok1 v0 => { s with r0 := v0, status := statusComplete s.status errNone }
  | .ok3 v0 v1 v2 => { s with r0 := v0, r1 := v1, r2 := v2, status := statusComplete s.status errNone }
  | .err k => s.takeError k

/-- The reset event: every register takes its reset value, the witness table is unchanged, and a command in progress is
abandoned (70_reset_and_hazards.md R190, R191). -/
def State.resetRegs (s : State) : State :=
  { s with toRegs := Regs.reset }

/-- The slot that a bus access of `width` bytes at `address` names, if it is the access to one whole register: offset
`8·j` from `BASE`, 8 bytes (20_memory.md R41, R42, R44). -/
def slotAt (bus : BusMap) (address width : Nat) : Option BusSlot :=
  if h : bus.base ≤ address ∧ (address - bus.base) % 8 = 0 ∧ (address - bus.base) / 8 < 8 ∧ width = 8 then
    some (bus.slots[(address - bus.base) / 8]'h.2.2.1)
  else none

/-- The bit at place `p` of a slot, the bytes listed from the lowest address up (20_memory.md R41). -/
def placeBit (bytes : List Byte) (p : Fin 64) : Bool := (bytes.getD (p.val / 8) 0).getLsbD (p.val % 8)

/-- The word that the bytes of a slot stand for: bit `k` is the bit at the place of `k` (20_memory.md R41). -/
def slotWord (slot : BusSlot) (bytes : List Byte) : Word := BitVec.ofFnLE fun k => placeBit bytes slot.place[k]

/-- The bit of the word `v` that stands at place `p` of a slot. A place no register bit has, which is in no well-formed
map, reads as zero. -/
def slotBit (slot : BusSlot) (v : Word) (p : Nat) : Bool :=
  (List.finRange 64).any fun k => slot.place[k].val == p && v.getLsbD k.val

/-- The bytes of a slot that holds the word `v`, from the lowest address up (20_memory.md R41). -/
def slotBytes (slot : BusSlot) (v : Word) : List Byte :=
  (List.range 8).map fun d => BitVec.ofFnLE fun e : Fin 8 => slotBit slot v (8 * d + e.val)

/-- A bus read of the register in a slot: the read of the register, its value answered as the slot's bytes (10_state.md
R34, 20_memory.md R41). -/
def State.busRead (s : State) (slot : BusSlot) (address : Nat) : State :=
  { s with replies := s.replies ++ [.bus address (slotBytes slot (s.readReg slot.reg))] }

/-- The bytes of a word, bits 7:0 at the lowest address, as the recommended `BYTE_MAP` lists them (20_memory.md R41). -/
def wordBytes (v : Word) : List Byte :=
  [v.extractLsb' 0 8, v.extractLsb' 8 8, v.extractLsb' 16 8, v.extractLsb' 24 8,
   v.extractLsb' 32 8, v.extractLsb' 40 8, v.extractLsb' 48 8, v.extractLsb' 56 8]

end Sys2Proof.Machine
end

