-- ==== Sys2Proof/Machine/AddSub.lean ====
section
/-! DEFINITION. The modular adder and subtractor: ADDMOD and SUBMOD (40_addsub.md). -/

namespace Sys2Proof.Machine

/-- `addmod(a, b, m)`, the sum formed in unbounded arithmetic (40_addsub.md R80). -/
def addmod (a b m : Nat) : Nat := (a + b) % m

/-- `submod(a, b, m)`, the non-negative residue of the integer `a − b` (40_addsub.md R83, 00_scope.md R7). -/
def submod (a b m : Nat) : Nat := (((a : Int) - (b : Int)) % (m : Int)).toNat

/-- The overflow-safe evaluation of `addmod`: every quantity is a 64-bit value (40_addsub.md R82). -/
def addmodSafe (a b m : Word) : Word :=
  if a > BitVec.allOnes 64 - b then
    let r := BitVec.allOnes 64 % m
    let ex := (a - (BitVec.allOnes 64 - b)) % m
    let s := r + ex
    if s ≥ m then s - m else s
  else (a + b) % m

/-- The evaluation of `submod` within 64 bits: a zero difference is not negated into `m` (40_addsub.md R85). -/
def submodSafe (a b m : Word) : Word :=
  if a < b then
    let t := (b - a) % m
    if t = 0 then 0 else m - t
  else (a - b) % m

/-- The outcome of ADDMOD (40_addsub.md R81, R86). -/
def addmodOutcome (a b m : Word) : CmdOutcome :=
  if m = 0#64 then .err .divideByZero else .ok1 (toWord (addmod a.toNat b.toNat m.toNat))

/-- The outcome of SUBMOD (40_addsub.md R84, R86). -/
def submodOutcome (a b m : Word) : CmdOutcome :=
  if m = 0#64 then .err .divideByZero else .ok1 (toWord (submod a.toNat b.toNat m.toNat))

/-- ADDMOD (40_addsub.md R81; completion by 10_state.md R33). -/
def execAddmod (s : State) : Host.Outcome State Fault Refusal := .next (s.complete (addmodOutcome s.a s.b s.m))

/-- SUBMOD (40_addsub.md R84; completion by 10_state.md R33). -/
def execSubmod (s : State) : Host.Outcome State Fault Refusal := .next (s.complete (submodOutcome s.a s.b s.m))

end Sys2Proof.Machine
end

