-- ==== Sys2Proof/Machine/MulMod.lean ====
section
/-! DEFINITION. The wide modular multiplier: MULMOD (41_mulmod.md). -/

namespace Sys2Proof.Machine

/-- `mulmod(a, b, m)`, the exact product reduced (41_mulmod.md R90; R94: define MULMOD by R90 alone). -/
def mulmod (a b m : Nat) : Nat := a * b % m

/-- The doubling loop of 41_mulmod.md R93 on 64-bit values, its additions done by the overflow-safe adder: at most `fuel`
iterations over the bits of `b`. -/
def doublingLoop : Nat → Word → Word → Word → Word → Word
  | 0, acc, _, _, _ => acc
  | fuel + 1, acc, run, b, m =>
    if b = 0 then acc
    else
      doublingLoop fuel (if b.getLsbD 0 then addmodSafe acc run m else acc) (addmodSafe run run m) (b >>> 1) m

/-- The evaluation of MULMOD by doubling: reduce, return the trivial products, swap, loop over the at most 64 bits of
the smaller operand (41_mulmod.md R92, R93). -/
def mulmodDoubling (a b m : Word) : Word :=
  let a' := a % m
  let b' := b % m
  if a' = 0 ∨ b' = 0 ∨ m = 1 then 0
  else if a' < b' then doublingLoop 64 0 b' a' m
  else doublingLoop 64 0 a' b' m

/-- The outcome of MULMOD (41_mulmod.md R91). -/
def mulmodOutcome (a b m : Word) : CmdOutcome :=
  if m = 0#64 then .err .divideByZero else .ok1 (toWord (mulmod a.toNat b.toNat m.toNat))

/-- MULMOD (41_mulmod.md R91; completion by 10_state.md R33). -/
def execMulmod (s : State) : Host.Outcome State Fault Refusal := .next (s.complete (mulmodOutcome s.a s.b s.m))

end Sys2Proof.Machine
end

