-- ==== Sys2Proof/Machine/Euclid.lean ====
section
/-! DEFINITION. The extended Euclidean unit and the modular inverse unit: EGCD and MODINV (43_euclid_inverse.md). -/

namespace Sys2Proof.Machine

/-- The recursion of 43_euclid_inverse.md R110 for `fuel ≥ a`: the first argument strictly decreases, so it has reached
the base case `a = 0` when the fuel is used up. -/
def egcdLoop : Nat → Nat → Nat → Nat → Except ErrKind (Nat × Nat × Nat)
  | 0, _, b, _ => .ok (b, 0, 1)
  | fuel + 1, a, b, m =>
    if a = 0 then .ok (b, 0, 1)
    else
      match egcdLoop fuel (b % a) a m with
      | .error k => .error k
      | .ok (g, x1, y1) =>
        if m = 0 then .error .divideByZero
        else .ok (g, submod y1 (mulmod (b / a) x1 m) m, x1)

/-- `egcd(a, b, m)`: a triple `(g, x, y)` or an error (43_euclid_inverse.md R110). -/
def egcd (a b m : Nat) : Except ErrKind (Nat × Nat × Nat) := egcdLoop a a b m

/-- `modinv(a, m)`: an inverse or NoInverse (43_euclid_inverse.md R115). -/
def modinv (a m : Nat) : Except ErrKind Nat :=
  match egcd (a % m) m m with
  | .error k => .error k
  | .ok (g, x, _) => if g ≠ 1 then .error .noInverse else .ok (x % m)

/-- The outcome of EGCD; no test of its own, the zero modulus is found by the recursion (43_euclid_inverse.md R112,
R113). -/
def egcdOutcome (a b m : Word) : CmdOutcome :=
  match egcd a.toNat b.toNat m.toNat with
  | .error k => .err k
  | .ok (g, x, y) => .ok3 (toWord g) (toWord x) (toWord y)

/-- The outcome of MODINV; the zero modulus is tested first (43_euclid_inverse.md R116, R118). -/
def modinvOutcome (a m : Word) : CmdOutcome :=
  if m = 0#64 then .err .divideByZero
  else
    match modinv a.toNat m.toNat with
    | .error k => .err k
    | .ok x => .ok1 (toWord x)

/-- EGCD (43_euclid_inverse.md R112; completion by 10_state.md R33). -/
def execEgcd (s : State) : Host.Outcome State Fault Refusal := .next (s.complete (egcdOutcome s.a s.b s.m))

/-- MODINV (43_euclid_inverse.md R116; completion by 10_state.md R33). `B` is not read. -/
def execModinv (s : State) : Host.Outcome State Fault Refusal := .next (s.complete (modinvOutcome s.a s.m))

end Sys2Proof.Machine
end

