-- ==== Sys2Proof/Machine/DivMod.lean ====
section
/-! DEFINITION. The modular divider: DIVMOD (44_divmod.md). -/

namespace Sys2Proof.Machine

/-- `divmod(a, b, m)`: the zero divisor is tested on `b` as given, before any reduction (44_divmod.md R125). -/
def divmod (a b m : Nat) : Except ErrKind Nat :=
  if b = 0 then .error .divideByZero
  else
    match modinv b m with
    | .error k => .error k
    | .ok inv => .ok (mulmod a inv m)

/-- The outcome of DIVMOD, its tests in the order of 44_divmod.md R126, R127, R128. -/
def divmodOutcome (a b m : Word) : CmdOutcome :=
  if b = 0#64 then .err .divideByZero
  else if m = 0#64 then .err .divideByZero
  else
    match divmod a.toNat b.toNat m.toNat with
    | .error k => .err k
    | .ok v => .ok1 (toWord v)

/-- DIVMOD (44_divmod.md R126; completion by 10_state.md R33). -/
def execDivmod (s : State) : Host.Outcome State Fault Refusal := .next (s.complete (divmodOutcome s.a s.b s.m))

end Sys2Proof.Machine
end

