-- ==== Sys2Proof/Machine/PowMod.lean ====
section
/-! DEFINITION. The modular exponentiation engine: POWMOD (42_powmod.md). -/

namespace Sys2Proof.Machine

/-- The square-and-multiply loop of 42_powmod.md R102, from the low bit up, at most `fuel` iterations. -/
def sqmulLoop : Nat → Nat → Nat → Nat → Nat → Nat
  | 0, r, _, _, _ => r
  | fuel + 1, r, base, k, m =>
    let r' := if k % 2 = 1 then mulmod r base m else r
    if k / 2 = 0 then r' else sqmulLoop fuel r' (mulmod base base m) (k / 2) m

/-- `sqmul(a', e', m)`; an exponent of `U64` has at most 64 bits, so the loop body runs at most 64 times
(42_powmod.md R102). -/
def sqmul (a e m : Nat) : Nat := sqmulLoop 64 1 a e m

/-- `powmod(a, e, m)`, the tests in the order of 42_powmod.md R100. The exponent is reduced modulo `m` before use
(R104). -/
def powmod (a e m : Nat) : Nat :=
  let a' := a % m
  if a' = 1 then 1
  else
    let e' := e % m
    if e' = 0 then 1
    else if a' = m - 1 then (if e' % 2 = 1 then m - 1 else 1)
    else sqmul a' e' m

/-- The outcome of POWMOD (42_powmod.md R101, R106). -/
def powmodOutcome (a e m : Word) : CmdOutcome :=
  if m = 0#64 then .err .divideByZero else .ok1 (toWord (powmod a.toNat e.toNat m.toNat))

/-- POWMOD (42_powmod.md R101; completion by 10_state.md R33). -/
def execPowmod (s : State) : Host.Outcome State Fault Refusal := .next (s.complete (powmodOutcome s.a s.b s.m))

end Sys2Proof.Machine
end

