-- ==== Sys2Proof/Machine/IsPrime.lean ====
section
/-! DEFINITION. The Miller-Rabin primality checker: ISPRIME (45_isprime.md), with the witness table (10_state.md R23 to
R26). -/

namespace Sys2Proof.Machine

/-- The witness primes `WP[0..12]`, ascending (10_state.md R24). -/
def witnessPrimes : List Nat := [2, 3, 5, 7, 11, 13, 17, 19, 23, 29, 31, 37, 41]

/-- The witness bounds `WB[0..12]`: the OPEN eleven, then `MAX` twice (10_state.md R25). -/
def witnessBounds (bounds : OpenBounds) : List Nat := bounds.toList.map BitVec.toNat ++ [maxU64, maxU64]

/-- The witness table: the entries `(WP[i], WB[i])`, `i` from 0 to 12 (10_state.md R23). -/
def witnessTable (bounds : OpenBounds) : List (Nat × Nat) := witnessPrimes.zip (witnessBounds bounds)

/-- Stage 2, trial division by the witness primes: a verdict, or none if no prime of the list divides `n`
(45_isprime.md R134). -/
def trialDivision : List Nat → Nat → Option Bool
  | [], _ => none
  | p :: ps, n => if n % p = 0 then some (n == p) else trialDivision ps n

/-- The loop of stage 3 on `(d, s)`: halve `d` while it is even, at most `fuel` times (45_isprime.md R133). -/
def oddPartLoop : Nat → Nat → Nat → Nat × Nat
  | 0, d, s => (d, s)
  | fuel + 1, d, s => if d % 2 = 0 then oddPartLoop fuel (d / 2) (s + 1) else (d, s)

/-- Stage 3: `(d, s)` with `n − 1 = d · 2^s` and `d` odd; at most 63 shifts on `U64` (45_isprime.md R133, R139). -/
def oddPart (n : Nat) : Nat × Nat := oddPartLoop 64 (n - 1) 0

/-- The squaring loop of 45_isprime.md R137: square up to `count` times looking for `n − 1`. -/
def squaringFinds : Nat → Nat → Nat → Bool
  | 0, _, _ => false
  | count + 1, x, n =>
    let x' := mulmod x x n
    if x' = n - 1 then true else squaringFinds count x' n

/-- The evaluation of "the witness `p` passes", with `n − 1 = d · 2^s` (45_isprime.md R137). -/
def witnessPasses (n d s p : Nat) : Bool :=
  let x := powmod p d n
  if x = 1 ∨ x = n - 1 then true else squaringFinds (s - 1) x n

/-- Stage 4, the witness loop in the table's order (45_isprime.md R135, R136): a failing witness ends it with `false`, a
passing one with `n` strictly below its bound ends it with `true`, and after the last one the verdict is `true`. -/
def witnessLoop : List (Nat × Nat) → Nat → Nat → Nat → Bool
  | [], _, _, _ => true
  | (p, bound) :: rest, n, d, s =>
    if witnessPasses n d s p then (if n < bound then true else witnessLoop rest n d s) else false

/-- `isprime(n)` for a witness table: the four stages, the first verdict ends the evaluation (45_isprime.md R130, R131,
R135). -/
def isprime (table : List (Nat × Nat)) (n : Nat) : Bool :=
  if n < 2 then false
  else if n = 2 ∨ n = 3 then true
  else if n % 2 = 0 then false
  else
    match trialDivision (table.map Prod.fst) n with
    | some verdict => verdict
    | none => witnessLoop table n (oddPart n).1 (oddPart n).2

/-- The outcome of ISPRIME: 1 or 0, never an error (45_isprime.md R135). -/
def isprimeOutcome (bounds : OpenBounds) (a : Word) : CmdOutcome :=
  .ok1 (boolWord (isprime (witnessTable bounds) a.toNat))

/-- ISPRIME (45_isprime.md R135; completion by 10_state.md R33). `B` and `M` are not read. -/
def execIsprime (s : State) : Host.Outcome State Fault Refusal := .next (s.complete (isprimeOutcome s.bounds s.a))

end Sys2Proof.Machine
end

