-- ==== Sys2Proof/Machine/Isqrt.lean ====
section
/-! DEFINITION. The integer square root unit: ISQRT and ISSQUARE (46_isqrt.md). -/

namespace Sys2Proof.Machine

/-- The largest `r' ≥ r` with `r'·r' ≤ x` that differs from `r` in its lowest `k` bits only, decided from the top bit
down. -/
def floorSqrtBits : Nat → Nat → Nat → Nat
  | 0, r, _ => r
  | k + 1, r, x => if (r + 2 ^ k) * (r + 2 ^ k) ≤ x then floorSqrtBits k (r + 2 ^ k) x else floorSqrtBits k r x

/-- `isqrt(x) = floor_sqrt(x)` for `x` in `U64`; the root has at most 32 bits (46_isqrt.md R145). -/
def isqrt (x : Nat) : Nat := floorSqrtBits 32 0 x

/-- `issquare(x)` (46_isqrt.md R148). -/
def issquare (x : Nat) : Bool := isqrt x * isqrt x == x

/-- The digit-by-digit loop on the 64-bit values `rem`, `bit`, `y`, at most `fuel` iterations (46_isqrt.md R147). -/
def digitLoop : Nat → Word → Word → Word → Word
  | 0, _, _, y => y
  | fuel + 1, rem, bit, y =>
    if bit = 0 then y
    else
      let t := y ||| bit
      if rem ≥ t then digitLoop fuel (rem - t) (bit >>> 2) ((y >>> 1) ||| bit)
      else digitLoop fuel rem (bit >>> 2) (y >>> 1)

/-- The digit-by-digit square root: `bit` starts at the highest power of four not above `x`, that is at the leading set
bit's position rounded down to an even one; the loop runs at most 32 times (46_isqrt.md R147). -/
def isqrtDigits (x : Word) : Word :=
  if x ≤ 3 then (if x = 0 then 0 else 1)
  else digitLoop 33 x (1#64 <<< (2 * (x.toNat.log2 / 2))) 0

/-- The outcome of ISQRT: never an error (46_isqrt.md R146). -/
def isqrtOutcome (a : Word) : CmdOutcome := .ok1 (toWord (isqrt a.toNat))

/-- The outcome of ISSQUARE: 1 or 0, never an error (46_isqrt.md R149). -/
def issquareOutcome (a : Word) : CmdOutcome := .ok1 (boolWord (issquare a.toNat))

/-- ISQRT (46_isqrt.md R146; completion by 10_state.md R33). `B` and `M` are not read. -/
def execIsqrt (s : State) : Host.Outcome State Fault Refusal := .next (s.complete (isqrtOutcome s.a))

/-- ISSQUARE (46_isqrt.md R149; completion by 10_state.md R33). `B` and `M` are not read. -/
def execIssquare (s : State) : Host.Outcome State Fault Refusal := .next (s.complete (issquareOutcome s.a))

end Sys2Proof.Machine
end

