-- ==== Sys2Proof/Machine/Dispatch.lean ====
section
/-! DEFINITION. The meaning of every command: what the engine's `COMPLETE` does when `CMD` holds its word
(30_encoding.md R63, 10_state.md R33). -/

namespace Sys2Proof.Machine

def exec (i : Instr) (s : State) : Host.Outcome State Fault Refusal :=
  match i with
  | .addmod => Sys2Proof.Machine.execAddmod s
  | .submod => Sys2Proof.Machine.execSubmod s
  | .mulmod => Sys2Proof.Machine.execMulmod s
  | .powmod => Sys2Proof.Machine.execPowmod s
  | .egcd => Sys2Proof.Machine.execEgcd s
  | .modinv => Sys2Proof.Machine.execModinv s
  | .divmod => Sys2Proof.Machine.execDivmod s
  | .isprime => Sys2Proof.Machine.execIsprime s
  | .isqrt => Sys2Proof.Machine.execIsqrt s
  | .issquare => Sys2Proof.Machine.execIssquare s

end Sys2Proof.Machine
end

