-- ==== Sys2Proof/Machine/Events.lean ====
section
/-! DEFINITION. The events: what the engine, the host and the reset source do when it is their turn
(10_state.md section 7, 20_memory.md R47, R52). -/

namespace Sys2Proof.Machine

/-- `COMPLETE` of a busy block: the command in `CMD` takes its effect; a word that selects no command ends with
IllegalCommand, and no operand is read (10_state.md R33, 30_encoding.md R63, R64). -/
def engineComplete (s : State) : Host.Outcome State Fault Refusal :=
  match decode s.cmd with
  | .command i => exec i s
  | .illegal _ => .next (s.takeError .illegalCommand)

/-- The engine's turn: `COMPLETE` is enabled exactly when `BUSY = 1` (10_state.md R33). An idle engine does nothing
(DESIGN CHOICE, safe, log entry 3). -/
def engineTurn (s : State) : Host.Outcome State Fault Refusal :=
  if s.busy then engineComplete s else .next s

/-- One poll of `WAIT`: `RD STATUS`; the loop ends when the value read has `BUSY = 0`, else `WAIT` stays the next action
(30_encoding.md R68, 70_reset_and_hazards.md R197). -/
def waitPoll (s : State) (rest : List HostAction) : State :=
  if s.busy then s.hostRead .status else { s.hostRead .status with script := rest }

/-- One host action, `rest` being what the host does after it (20_memory.md R40, R46). A bus access of one whole register
is the access to that register, its bits where the platform's `BYTE_MAP` puts them; any other is refused (20_memory.md
R41, R42). -/
def hostAction (act : HostAction) (rest : List HostAction) (s : State) : Host.Outcome State Fault Refusal :=
  match act with
  | .wr r v => .next ({ s with script := rest }.hostWrite r v)
  | .rd r => .next ({ s with script := rest }.hostRead r)
  | .wait => .next (waitPoll s rest)
  | .busWr address bytes =>
    match slotAt s.bus address bytes.length with
    | some slot => .next ({ s with script := rest }.hostWrite slot.reg (slotWord slot bytes))
    | none => .refused .partialBusAccess
  | .busRd address width =>
    match slotAt s.bus address width with
    | some slot => .next ({ s with script := rest }.busRead slot address)
    | none => .refused .partialBusAccess

/-- The host's turn: its next action in program order (20_memory.md R46). A host with nothing left to do does nothing
(DESIGN CHOICE, safe, log entry 3). -/
def hostTurn (s : State) : Host.Outcome State Fault Refusal :=
  match s.script with
  | [] => .next s
  | act :: rest => hostAction act rest s

/-- One event of the total order (20_memory.md R52). The list `turns` says who moves. When it is used up, a busy block
completes, and otherwise the host moves: `COMPLETE` is not put off for ever (70_reset_and_hazards.md R197). -/
def nextEvent (s : State) : Host.Outcome State Fault Refusal :=
  match s.turns with
  | .host :: ts => hostTurn { s with turns := ts }
  | .engine :: ts => engineTurn { s with turns := ts }
  | .reset :: ts => .next { s with turns := ts }.resetRegs
  | [] => if s.busy then engineTurn s else hostTurn s

/-- `s` with the command word `w` just accepted (10_state.md R31) and the engine to move next, so that the next event is
the command's `COMPLETE`. -/
def acceptedNext (s : State) (w : Word) : State :=
  { s.accept w with turns := .engine :: s.turns }

end Sys2Proof.Machine
end

