-- ==== Sys2Proof/Machine/Step.lean ====
section
/-! DEFINITION. One step of the machine is one event; a run is a number of steps. -/

namespace Sys2Proof.Machine

/-- One step: the next event of the total order (20_memory.md R52). -/
def step (s : State) : Host.Outcome State Fault Refusal := nextEvent s

/-- `n` steps, stopping where a step stops. -/
def run : Nat → State → Host.Outcome State Fault Refusal
  | 0, s => .next s
  | n + 1, s =>
    match step s with
    | .next t => run n t
    | .fault r => .fault r
    | .refused r => .refused r

/-- The block fetches nothing: an instruction is the command word in `CMD` of a busy block (10_state.md R29,
20_memory.md R50, 30_encoding.md R60). So the instruction is stored by accepting its word, with the engine to move next
(log entry 5). -/
def State.withFetchWord (s : State) (nbits w : Nat) : State :=
  acceptedNext s (BitVec.ofNat 64 (w % 2 ^ nbits))

end Sys2Proof.Machine
end

