-- ==== Sys2Proof/Machine/Outcome.lean ====
section
/-! DEFINITION. `Exec(c, a, b, m)`, the outcome of a command word as a pure function (30_encoding.md R63, 10_state.md
R14). The machine runs the meanings of Dispatch.lean; statements use this function to speak of outcomes. -/

namespace Sys2Proof.Machine

/-- The outcome of a command on operand values, for a witness table (30_encoding.md R63, 10_state.md R14). -/
def outcomeOf (bounds : OpenBounds) (i : Instr) (a b m : Word) : CmdOutcome :=
  match i with
  | .addmod => addmodOutcome a b m
  | .submod => submodOutcome a b m
  | .mulmod => mulmodOutcome a b m
  | .powmod => powmodOutcome a b m
  | .egcd => egcdOutcome a b m
  | .modinv => modinvOutcome a m
  | .divmod => divmodOutcome a b m
  | .isprime => isprimeOutcome bounds a
  | .isqrt => isqrtOutcome a
  | .issquare => issquareOutcome a

/-- `Exec(c, a, b, m)`: the outcome of any command word; a word that selects no command is IllegalCommand
(30_encoding.md R63, R64). -/
def outcomeOfWord (bounds : OpenBounds) (c a b m : Word) : CmdOutcome :=
  match decode c with
  | .command i => outcomeOf bounds i a b m
  | .illegal _ => .err .illegalCommand

end Sys2Proof.Machine
end

