-- ==== Sys2Proof/Safety.lean ====
section
/-! DEFINITION. The terms in which claims are stated: the reachable-state invariant, what a completion leaves, when a
result may be read, the protocol a host keeps, and the mathematics the rules use. -/

namespace Sys2Proof.Machine

/-- What holds in every reachable state: the invariants of `STATUS` (10_state.md R22), and what `DONE` and `ERR` say
about `CMD` and the results (10_state.md R13, R19, R20, R36; 60_exceptions.md R160). -/
structure Inv (s : State) : Prop where
  /-- `BUSY = 1` implies `DONE = 0` and `ERR = 0` (10_state.md R22). -/
  busyClears : s.busy = true → s.done = false ∧ s.err = 0
  /-- `DONE = 0` implies `ERR = 0` (10_state.md R22). -/
  notDoneNoErr : s.done = false → s.err = 0
  /-- Bits 63:5 are zero (10_state.md R22). -/
  reservedZero : statusReserved s.status = 0
  /-- Neither busy nor done: no command since reset, so `CMD` and the results hold their reset values (10_state.md R19,
  R36). -/
  freshAfterReset : s.busy = false → s.done = false → s.cmd = 0 ∧ s.r0 = 0 ∧ s.r1 = 0 ∧ s.r2 = 0
  /-- The error of a completed command is one that command can raise (10_state.md R13). -/
  errOfCommand : ∀ i, s.done = true → decode s.cmd = .command i → s.err = 0 ∨ ∃ k ∈ errorsOf i, s.err = errCode k
  /-- A completed word that selects no command has `ERR = 3` (30_encoding.md R64). -/
  errOfIllegal : ∀ why, s.done = true → decode s.cmd = .illegal why → s.err = 3

/-- `t` shows a completion with code `e` that started from `s`: `BUSY = 0`, `DONE = 1`, `ERR = e`, `OVR` as before
(10_state.md R33). -/
def Finished (s t : State) (e : BitVec 2) : Prop := t.busy = false ∧ t.done = true ∧ t.err = e ∧ t.ovr = s.ovr

/-- The result registers are those of `s`. -/
def SameResults (s t : State) : Prop := t.r0 = s.r0 ∧ t.r1 = s.r1 ∧ t.r2 = s.r2

/-- `A`, `B`, `M` and `CMD` are those of `s`. -/
def SameOperands (s t : State) : Prop := t.a = s.a ∧ t.b = s.b ∧ t.m = s.m ∧ t.cmd = s.cmd

/-- The witness bounds, the bus map, the script, the turns and the replies are those of `s`. -/
def SameSurroundings (s t : State) : Prop :=
  t.bounds = s.bounds ∧ t.bus = s.bus ∧ t.script = s.script ∧ t.turns = s.turns ∧ t.replies = s.replies

/-- How an outcome reaches the result registers and `ERR` (10_state.md R12, R33): the values of an `Ok` outcome with
`ERR = 0`, or the code of an error with the results of `s` kept. -/
def Reports (o : CmdOutcome) (s t : State) : Prop :=
  match o with
  | .ok1 v0 => t.r0 = v0 ∧ t.r1 = s.r1 ∧ t.r2 = s.r2 ∧ t.err = 0
  | .ok3 v0 v1 v2 => t.r0 = v0 ∧ t.r1 = v1 ∧ t.r2 = v2 ∧ t.err = 0
  | .err k => SameResults s t ∧ t.err = errCode k

/-- `R0` (and `R1`, `R2` for EGCD) hold the result of the last command only when `BUSY = 0`, `DONE = 1`, `ERR = 0`
(70_reset_and_hazards.md R194). -/
def resultValid (s : State) : Bool := !s.busy && s.done && s.err == 0

/-- The register write a host action performs, if it performs one. -/
def portWriteOf (bus : BusMap) : HostAction → Option (Reg × Word)
  | .wr r v => some (r, v)
  | .rd _ => none
  | .wait => none
  | .busWr address bytes => (slotAt bus address bytes.length).map fun slot => (slot.reg, slotWord slot bytes)
  | .busRd _ _ => none

/-- A host action that goes through a platform's bus and not through the port (20_memory.md R40, R41). -/
def onBus : HostAction → Bool
  | .wr _ _ => false
  | .rd _ => false
  | .wait => false
  | .busWr _ _ => true
  | .busRd _ _ => true

/-- The registers the host must not write while `BUSY = 1` (70_reset_and_hazards.md R193). -/
def guarded : Reg → Bool
  | .a => true
  | .b => true
  | .m => true
  | .cmd => true
  | .status => false
  | .r0 => false
  | .r1 => false
  | .r2 => false

/-- Who moves next: the head of `turns`; when the list is used up, the engine if the block is busy and else the host. -/
def nextMover (s : State) : Turn :=
  match s.turns with
  | [] => if s.busy then .engine else .host
  | t :: _ => t

/-- The register write of the next event, if the host moves next and writes. -/
def nextWrite (s : State) : Option (Reg × Word) :=
  match nextMover s with
  | .host => s.script.head?.bind (portWriteOf s.bus)
  | .engine => none
  | .reset => none

/-- The next event breaks the protocol of 70_reset_and_hazards.md R193: a write of `A`, `B`, `M` or `CMD` while busy. -/
def breaksProtocol (s : State) : Bool :=
  s.busy && (match nextWrite s with | some (r, _) => guarded r | none => false)

/-- The outcome of a call: its function's value on its arguments, and on nothing else but the witness table
(30_encoding.md R68, 10_state.md R14). -/
def callOutcome (bounds : OpenBounds) : Call → CmdOutcome
  | .addMod a b m => addmodOutcome a b m
  | .subMod a b m => submodOutcome a b m
  | .mulMod a b m => mulmodOutcome a b m
  | .powMod a e m => powmodOutcome a e m
  | .extendedEuclid a b m => egcdOutcome a b m
  | .modInverse a m => modinvOutcome a m
  | .divMod a b m => divmodOutcome a b m
  | .isPrime t => isprimeOutcome bounds t
  | .isqrt x => isqrtOutcome x
  | .isSquare x => issquareOutcome x

/-- `prime(n)` (00_scope.md R7). -/
def prime (n : Nat) : Prop := 2 ≤ n ∧ ∀ k, 1 < k → k < n → ¬ k ∣ n

/-- `SPRP(n, p)`, the powers taken in unbounded arithmetic (45_isprime.md R132). -/
def SPRP (n p : Nat) : Prop :=
  ∃ d s, d % 2 = 1 ∧ 1 ≤ s ∧ n - 1 = d * 2 ^ s ∧ (p ^ d % n = 1 ∨ ∃ r, r ≤ s - 1 ∧ p ^ (d * 2 ^ r) % n = n - 1)

/-- `n` reaches the witness loop: odd, at least 43, divisible by no witness prime (45_isprime.md R134). -/
def ReachesWitnesses (n : Nat) : Prop := 43 ≤ n ∧ n % 2 = 1 ∧ ∀ p ∈ witnessPrimes, ¬ p ∣ n

/-- The soundness constraint of 10_state.md R26 at one `n`: if `n` reaches the witnesses, lies below `WB[i]` and passes
`WP[0..i]`, it is prime. The constraint on the table is this for every `n` of `U64`. -/
def SoundAt (bounds : OpenBounds) (n : Nat) : Prop :=
  ∀ i, i < 13 → ReachesWitnesses n → n < (witnessBounds bounds).getD i 0 →
    (∀ j, j ≤ i → SPRP n (witnessPrimes.getD j 0)) → prime n

end Sys2Proof.Machine
end

