-- ==== Sys2Proof/Certificates/Slice0/Obligations.lean ====
section
/-! DEFINITION. The statements for the provers, one definition each, in the order of OBLIGATIONS.json. They speak of every
state, whatever its registers, witness bounds, bus map, script and turns. -/

open Sys2Proof Sys2Proof.Machine

/-! ## Encoding and decoding -/

/-- 30_encoding.md R62: a command word selects the command of a row exactly when it is that row's word, over all 2^64
words. -/
def Obligations.DecodeSelectsExactlyTheTenWords : Prop :=
  ∀ (w : Word) (i : Instr), decode w = .command i ↔ w = encode i

/-- 30_encoding.md R62: the ten words of the opcode map, written out, decode to their commands. -/
def Obligations.WrittenOutCommandWordsDecode : Prop :=
  decode 0x0000000000000001#64 = .command .addmod ∧ decode 0x0000000000000002#64 = .command .submod ∧
  decode 0x0000000000000003#64 = .command .mulmod ∧ decode 0x0000000000000004#64 = .command .powmod ∧
  decode 0x0000000000000005#64 = .command .egcd ∧ decode 0x0000000000000006#64 = .command .modinv ∧
  decode 0x0000000000000007#64 = .command .divmod ∧ decode 0x0000000000000008#64 = .command .isprime ∧
  decode 0x0000000000000009#64 = .command .isqrt ∧ decode 0x000000000000000A#64 = .command .issquare

/-- 30_encoding.md R64: the illegal words are 0, 11 to 15 (unassigned opcode) and every word from 16 up (bits 63:4 not
zero). -/
def Obligations.IllegalWordsAreRejectedByName : Prop :=
  ∀ w : Word,
    (decode w = .illegal .zeroFieldSet ↔ 16 ≤ w.toNat) ∧
    (decode w = .illegal .unassignedOpcode ↔ w.toNat = 0 ∨ (11 ≤ w.toNat ∧ w.toNat ≤ 15))

/-- 30_encoding.md R67: the triple of a `WR` or `RD` line gives the line back, and a triple that is a line is that line's
triple. -/
def Obligations.PortTripleRoundTrip : Prop :=
  (∀ r v, (HostAction.wr r v).triple.bind PortTriple.action = some (.wr r v)) ∧
  (∀ r, (HostAction.rd r).triple.bind PortTriple.action = some (.rd r)) ∧
  (∀ (p : PortTriple) (act : HostAction), p.action = some act → act.triple = some p)

/-! ## The step and the interface -/

/-- 10_state.md R33, 30_encoding.md R63: when the engine moves next and the block is busy, a step is the meaning of the
command that `CMD` decodes to, with the turn taken off. -/
def Obligations.StepRunsDecodedCommand : Prop :=
  ∀ (s : State) (i : Instr), s.busy = true → nextMover s = .engine → decode s.cmd = .command i →
    step s = exec i { s with turns := s.turns.tail }

/-- Log entry 5 (the model's choice): the step after `withFetchWord` is the meaning of the word's command in the state
that has just accepted the word (10_state.md R31). -/
def Obligations.StoredWordRunsNext : Prop :=
  ∀ (s : State) (i : Instr), step (s.withFetchWord 64 (encode i).toNat) = exec i (s.accept (encode i))

/-- 10_state.md R30: a host write to an operand register while idle, one clause per register. -/
def Obligations.IdleWriteLoadsOperand : Prop :=
  ∀ (s : State) (v : Word) (rest : List HostAction), nextMover s = .host → s.busy = false →
    (s.script = .wr .a v :: rest → step s = .next { s with turns := s.turns.tail, script := rest, a := v }) ∧
    (s.script = .wr .b v :: rest → step s = .next { s with turns := s.turns.tail, script := rest, b := v }) ∧
    (s.script = .wr .m v :: rest → step s = .next { s with turns := s.turns.tail, script := rest, m := v })

/-- 10_state.md R31: command accept. Any value is accepted; only `CMD`, `BUSY`, `DONE`, `ERR` change. -/
def Obligations.IdleCommandWriteIsAccepted : Prop :=
  ∀ (s : State) (v : Word) (rest : List HostAction), nextMover s = .host → s.busy = false →
    s.script = .wr .cmd v :: rest →
    ∃ t, step s = .next t ∧ t.cmd = v ∧ t.busy = true ∧ t.done = false ∧ t.err = 0 ∧ t.ovr = s.ovr ∧
      statusReserved t.status = statusReserved s.status ∧
      t.a = s.a ∧ t.b = s.b ∧ t.m = s.m ∧ SameResults s t ∧
      t.bounds = s.bounds ∧ t.bus = s.bus ∧ t.script = rest ∧ t.turns = s.turns.tail ∧ t.replies = s.replies

/-- 10_state.md R32: a host write of `A`, `B`, `M` or `CMD` while busy is dropped and sets `OVR`; nothing else changes. -/
def Obligations.BusyWriteIsDroppedAndMarked : Prop :=
  ∀ (s : State) (r : Reg) (v : Word) (rest : List HostAction), nextMover s = .host → s.busy = true →
    s.script = .wr r v :: rest → (r = .a ∨ r = .b ∨ r = .m ∨ r = .cmd) →
    ∃ t, step s = .next t ∧ SameOperands s t ∧ SameResults s t ∧ t.ovr = true ∧
      t.busy = s.busy ∧ t.done = s.done ∧ t.err = s.err ∧ statusReserved t.status = statusReserved s.status ∧
      t.bounds = s.bounds ∧ t.bus = s.bus ∧ t.script = rest ∧ t.turns = s.turns.tail ∧ t.replies = s.replies

/-- 10_state.md R33: `COMPLETE` of a busy block reports the outcome of `Exec` on the registers, all at once, and changes
nothing else; and only a busy block completes: `DONE` does not rise in a step from an idle state. -/
def Obligations.CompleteReportsTheOutcome : Prop :=
  (∀ s : State, s.busy = true → nextMover s = .engine →
    ∃ t, step s = .next t ∧ t.busy = false ∧ t.done = true ∧ t.ovr = s.ovr ∧
      Reports (outcomeOfWord s.bounds s.cmd s.a s.b s.m) s t ∧ SameOperands s t ∧
      statusReserved t.status = statusReserved s.status ∧
      t.bounds = s.bounds ∧ t.bus = s.bus ∧ t.script = s.script ∧ t.turns = s.turns.tail ∧ t.replies = s.replies) ∧
  (∀ s t : State, step s = .next t → s.busy = false → t.done = true → s.done = true)

/-- 10_state.md R34: a host read returns the register as it stands (for `STATUS` the four fields, bits 63:5 zero) and
changes no register. -/
def Obligations.HostReadReturnsTheRegister : Prop :=
  ∀ (s : State) (r : Reg) (rest : List HostAction), nextMover s = .host → s.script = .rd r :: rest →
    ∃ t v, step s = .next t ∧ t.toRegs = s.toRegs ∧ t.bounds = s.bounds ∧ t.bus = s.bus ∧ t.script = rest ∧
      t.turns = s.turns.tail ∧ t.replies = s.replies ++ [.port r v] ∧
      (r = .a → v = s.a) ∧ (r = .b → v = s.b) ∧ (r = .m → v = s.m) ∧ (r = .cmd → v = s.cmd) ∧
      (r = .r0 → v = s.r0) ∧ (r = .r1 → v = s.r1) ∧ (r = .r2 → v = s.r2) ∧
      (r = .status → statusBusy v = s.busy ∧ statusDone v = s.done ∧ statusErr v = s.err ∧ statusOvr v = s.ovr ∧
        statusReserved v = 0)

/-- 10_state.md R35: a host write of `STATUS` clears `OVR` when bit 4 of the data is set and changes nothing else; a host
write of a result register changes nothing. Busy or not. -/
def Obligations.StatusAndResultWrites : Prop :=
  ∀ (s : State) (v : Word) (rest : List HostAction), nextMover s = .host →
    (s.script = .wr .status v :: rest →
      ∃ t, step s = .next t ∧ t.ovr = (s.ovr && !v.getLsbD 4) ∧ t.busy = s.busy ∧ t.done = s.done ∧ t.err = s.err ∧
        statusReserved t.status = statusReserved s.status ∧ SameOperands s t ∧ SameResults s t ∧
        t.bounds = s.bounds ∧ t.bus = s.bus ∧ t.script = rest ∧ t.turns = s.turns.tail ∧ t.replies = s.replies) ∧
    (∀ r, (r = .r0 ∨ r = .r1 ∨ r = .r2) → s.script = .wr r v :: rest →
      step s = .next { s with turns := s.turns.tail, script := rest })

/-- 30_encoding.md R64: a word that is none of the ten is accepted like any other and completes with `ERR = 3`,
`R0` to `R2` unchanged. -/
def Obligations.IllegalCommandCompletesWithErrThree : Prop :=
  ∀ (s : State) (v : Word) (rest : List HostAction) (ts : List Turn),
    s.busy = false → s.turns = .host :: .engine :: ts → s.script = .wr .cmd v :: rest →
    (v.toNat = 0 ∨ 11 ≤ v.toNat) →
    ∃ u t, run 1 s = .next u ∧ u.cmd = v ∧ u.busy = true ∧
      run 2 s = .next t ∧ Finished s t 3 ∧ SameResults s t ∧ t.a = s.a ∧ t.b = s.b ∧ t.m = s.m ∧ t.cmd = v

/-- 70_reset_and_hazards.md R190, 10_state.md R36: the reset event, at any point, makes every register zero and leaves the
witness table; `State.reset` has every register zero. That the bus map (log entry 8), the host's `script` (log entry 4)
and `replies` (log entry 6) stay as they are and that one turn is used (log entry 2) is the model's choice, no rule of the spec. -/
def Obligations.ResetZeroesEveryRegister : Prop :=
  (∀ s : State, nextMover s = .reset →
    ∃ t, step s = .next t ∧ t.a = 0 ∧ t.b = 0 ∧ t.m = 0 ∧ t.cmd = 0 ∧ t.status = 0 ∧ t.r0 = 0 ∧ t.r1 = 0 ∧ t.r2 = 0 ∧
      t.bounds = s.bounds ∧ t.bus = s.bus ∧ t.script = s.script ∧ t.turns = s.turns.tail ∧ t.replies = s.replies) ∧
  (State.reset.a = 0 ∧ State.reset.b = 0 ∧ State.reset.m = 0 ∧ State.reset.cmd = 0 ∧ State.reset.status = 0 ∧
    State.reset.r0 = 0 ∧ State.reset.r1 = 0 ∧ State.reset.r2 = 0)

/-- 30_encoding.md R68 with `WAIT` as one repeating host action (log entry 9, the model's choice): a poll returns `STATUS` and changes
no register; `WAIT` ends exactly when the block is idle. -/
def Obligations.WaitEndsExactlyWhenIdle : Prop :=
  ∀ (s : State) (rest : List HostAction), nextMover s = .host → s.script = .wait :: rest →
    ∃ t, step s = .next t ∧ t.toRegs = s.toRegs ∧ t.bounds = s.bounds ∧ t.bus = s.bus ∧
      t.replies = s.replies ++ [.port .status (statusVisible s.status)] ∧ t.turns = s.turns.tail ∧
      t.script = if s.busy then s.script else rest

/-- 20_memory.md R41, R42, R44, for every `BASE` and `BYTE_MAP`: a bus write of the eight bytes at offset `8·j` from the
base is the write of the register the map puts there, bit `k` of the value being the bit at the place of `k`; a bus read
there changes no register and answers eight bytes which, under a well-formed slot, hold each bit `k` of the register at
its place. The parameters in State, the record `replies` and the use of one turn are the model's choice (log entries 8, 6
and 2). -/
def Obligations.WholeRegisterBusAccess : Prop :=
  ∀ (s : State) (j : Fin 8) (rest : List HostAction), nextMover s = .host →
    (∀ bytes, bytes.length = 8 → s.script = .busWr (s.bus.base + 8 * j.val) bytes :: rest →
      ∃ v : Word, (∀ k : Fin 64, v.getLsbD k.val =
          (bytes.getD (s.bus.slots[j].place[k].val / 8) 0).getLsbD (s.bus.slots[j].place[k].val % 8)) ∧
        step s = step { s with script := .wr s.bus.slots[j].reg v :: rest }) ∧
    (s.script = .busRd (s.bus.base + 8 * j.val) 8 :: rest →
      ∃ bytes, bytes.length = 8 ∧
        step s = .next { s with
          turns := s.turns.tail, script := rest, replies := s.replies ++ [.bus (s.bus.base + 8 * j.val) bytes] } ∧
        (s.bus.slots[j].wf → ∀ k : Fin 64,
          (bytes.getD (s.bus.slots[j].place[k].val / 8) 0).getLsbD (s.bus.slots[j].place[k].val % 8) =
            (s.readReg s.bus.slots[j].reg).getLsbD k.val))

/-- 20_memory.md R42, R45; 60_exceptions.md R167 (log entry 8): a step never faults; it is refused exactly when the host
moves next with a bus access that is not one whole register; otherwise it answers a next state. -/
def Obligations.StepStopsOnlyOnPartialBusAccess : Prop :=
  ∀ s : State,
    (step s = .refused .partialBusAccess ↔
      nextMover s = .host ∧ ∃ act rest, s.script = act :: rest ∧ act.wf s.bus.base = false) ∧
    ((∃ t, step s = .next t) ∨ step s = .refused .partialBusAccess)

/-! ## Whole-machine rules -/

/-- 10_state.md R22 (with R13, R20, R36): every step keeps the invariant. -/
def Obligations.StepKeepsStatusInvariant : Prop :=
  ∀ s t : State, Inv s → step s = .next t → Inv t

/-- 10_state.md R22, R36: the state after reset meets the invariant. -/
def Obligations.ResetMeetsStatusInvariant : Prop := Inv State.reset

/-- 10_state.md R18: `BUSY` is 1 from the accept of a command until its `COMPLETE` (or a reset), and while it is 1 only a
reset changes `A`, `B`, `M` or `CMD`. -/
def Obligations.BusySpansAcceptToComplete : Prop :=
  ∀ s t : State, step s = .next t →
    (nextMover s = .host → (t.busy = true ↔ s.busy = true ∨ ∃ v, nextWrite s = some (.cmd, v))) ∧
    (nextMover s = .engine → t.busy = false) ∧
    (nextMover s = .reset → t.busy = false) ∧
    (s.busy = true → nextMover s ≠ .reset → SameOperands s t)

/-- 10_state.md R11, R16, R30, R32: `A`, `B`, `M`, `CMD` take the value of a host write while idle, become zero at reset,
and change in no other event. -/
def Obligations.OperandsChangeOnlyByIdleWrites : Prop :=
  ∀ s t : State, step s = .next t → nextMover s ≠ .reset →
    t.a = (match nextWrite s with | some (.a, v) => if s.busy then s.a else v | _ => s.a) ∧
    t.b = (match nextWrite s with | some (.b, v) => if s.busy then s.b else v | _ => s.b) ∧
    t.m = (match nextWrite s with | some (.m, v) => if s.busy then s.m else v | _ => s.m) ∧
    t.cmd = (match nextWrite s with | some (.cmd, v) => if s.busy then s.cmd else v | _ => s.cmd)

/-- 10_state.md R12; 70_reset_and_hazards.md R194: apart from reset, a result register changes only when a busy block
completes with `ERR = 0`, and `R1`, `R2` only when the command is EGCD. -/
def Obligations.ResultsChangeOnlyByOkCompletion : Prop :=
  ∀ s t : State, step s = .next t → nextMover s ≠ .reset →
    (¬ SameResults s t → s.busy = true ∧ nextMover s = .engine ∧ t.busy = false ∧ t.done = true ∧ t.err = 0) ∧
    (t.r1 ≠ s.r1 ∨ t.r2 ≠ s.r2 → decode s.cmd = .command .egcd)

/-- 10_state.md R21, R32, R35; 70_reset_and_hazards.md R193: `OVR` rises exactly when the host breaks the protocol, falls
exactly by a reset or a `STATUS` write with bit 4 set, and else stays. -/
def Obligations.OverrunMarksProtocolBreaks : Prop :=
  ∀ s t : State, step s = .next t →
    t.ovr = (match nextMover s with
      | .reset => false
      | _ =>
        if breaksProtocol s then true
        else match nextWrite s with
          | some (.status, v) => s.ovr && !v.getLsbD 4
          | _ => s.ovr)

/-- 10_state.md R23: the witness table has 13 entries and no event, a reset included, changes it. -/
def Obligations.WitnessTableNeverChanges : Prop :=
  (∀ bounds, (witnessTable bounds).length = 13) ∧
  (∀ s t : State, step s = .next t → witnessTable t.bounds = witnessTable s.bounds)

/-- 10_state.md R24: the witness primes are exactly the primes up to 41, in ascending order. -/
def Obligations.WitnessPrimesAreThePrimesTo41 : Prop :=
  (∀ p, p ∈ witnessPrimes ↔ prime p ∧ p ≤ 41) ∧ witnessPrimes.Pairwise (· < ·)

/-- 70_reset_and_hazards.md R197 with the finite list `turns` (log entry 2, the model's choice): a busy block is idle
after at most as many steps as there are turns listed, and one. -/
def Obligations.BusyBlockCompletes : Prop :=
  ∀ s : State, s.busy = true → (∀ act ∈ s.script, act.wf s.bus.base = true) →
    ∃ n, n ≤ s.turns.length + 1 ∧ ∃ t, run n s = .next t ∧ t.busy = false

/-- 20_memory.md R47: from an accept with `k` host turns before `COMPLETE`, every state in between shows `BUSY = 1`,
`DONE = 0`, `ERR = 0` and the old results, and the outcome is `Exec` on the registers as they stood at the accept,
wherever `COMPLETE` falls. -/
def Obligations.OutcomeFixedAtAccept : Prop :=
  ∀ (s : State) (v : Word) (rest : List HostAction) (k : Nat) (ts : List Turn),
    s.busy = false → s.script = .wr .cmd v :: rest → (∀ act ∈ rest, act.wf s.bus.base = true) →
    s.turns = List.replicate (k + 1) .host ++ .engine :: ts →
    (∀ j, 1 ≤ j → j ≤ k + 1 → ∃ u, run j s = .next u ∧ u.busy = true ∧ u.done = false ∧ u.err = 0 ∧
      SameResults s u ∧ u.a = s.a ∧ u.b = s.b ∧ u.m = s.m ∧ u.cmd = v) ∧
    ∃ t, run (k + 2) s = .next t ∧ t.busy = false ∧ t.done = true ∧
      Reports (outcomeOfWord s.bounds v s.a s.b s.m) s t ∧ t.a = s.a ∧ t.b = s.b ∧ t.m = s.m ∧ t.cmd = v

/-- 30_encoding.md R68, 70_reset_and_hazards.md R197, 10_state.md R14: a call expanded into host actions, started on an
idle block, ends under every interleaving without a reset; the block then reports the call's outcome, which depends on
the call's arguments and the witness table alone; the host has read busy polls, the final `STATUS`, and the results.
Resets are excluded by hypothesis. The finite list `turns`, with `COMPLETE` when it is used up (log entry 2), the record
`replies` (log entry 6) and `WAIT` as one repeating host action (log entry 9) are the model's choices. -/
def Obligations.CallReturnsItsOutcome : Prop :=
  ∀ (c : Call) (s : State) (rest : List HostAction),
    s.busy = false → s.script = c.expand ++ rest → .reset ∉ s.turns →
    ∃ n t, run n s = .next t ∧ t.script = rest ∧ t.busy = false ∧ t.done = true ∧ t.ovr = s.ovr ∧
      t.cmd = encode c.instr ∧ Reports (callOutcome s.bounds c) s t ∧
      ∃ polls : List Word, (∀ v ∈ polls, statusBusy v = true) ∧
        t.replies = s.replies ++ polls.map (fun v => Reply.port .status v) ++ [Reply.port .status (statusVisible t.status)] ++
          c.results.map (fun r => Reply.port r (t.readReg r))

/-- 10_state.md R13, R14: the outcome of a command depends on the registers it reads (and ISPRIME on the witness bounds)
and on nothing else. -/
def Obligations.OutcomeDependsOnlyOnReads : Prop :=
  ∀ (i : Instr) (s u : State), (∀ r ∈ readsOf i, s.readReg r = u.readReg r) →
    (i = .isprime → s.bounds = u.bounds) →
    ∃ s' u', exec i s = .next s' ∧ exec i u = .next u' ∧ s'.err = u'.err ∧
      (s'.err = 0 → ∀ r ∈ writesOf i, s'.readReg r = u'.readReg r)

/-- 10_state.md R13, R33: the frame of every command. `A`, `B`, `M`, `CMD`, `OVR`, the reserved bits and the surroundings
are unchanged; every command but EGCD leaves `R1` and `R2`. (Every command may write `R0`; `ErrorWritesStatusOnly` says
that an error leaves it.) -/
def Obligations.CommandFrame : Prop :=
  ∀ (i : Instr) (s : State), ∃ t, exec i s = .next t ∧ SameOperands s t ∧ SameSurroundings s t ∧ t.ovr = s.ovr ∧
    statusReserved t.status = statusReserved s.status ∧ t.busy = false ∧ t.done = true ∧
    (i ≠ .egcd → t.r1 = s.r1 ∧ t.r2 = s.r2)

/-- 60_exceptions.md R164: a command that ends with an error writes `STATUS` and nothing else. -/
def Obligations.ErrorWritesStatusOnly : Prop :=
  ∀ (i : Instr) (s t : State), exec i s = .next t → t.err ≠ 0 → t = { s with status := t.status }

/-- 60_exceptions.md R161: the complete list of causes of DivideByZero, over all commands. -/
def Obligations.DivideByZeroCauses : Prop :=
  ∀ (i : Instr) (s : State), ∃ t, exec i s = .next t ∧
    (t.err = 1 ↔
      (s.m = 0 ∧ (i = .addmod ∨ i = .submod ∨ i = .mulmod ∨ i = .powmod ∨ i = .modinv)) ∨
      (i = .egcd ∧ s.m = 0 ∧ s.a ≠ 0) ∨
      (i = .divmod ∧ (s.b = 0 ∨ s.m = 0)))

/-- 60_exceptions.md R162: the complete list of causes of NoInverse, over all commands. -/
def Obligations.NoInverseCauses : Prop :=
  ∀ (i : Instr) (s : State), ∃ t, exec i s = .next t ∧
    (t.err = 2 ↔
      (i = .modinv ∧ 1 ≤ s.m.toNat ∧ Nat.gcd (s.a.toNat % s.m.toNat) s.m.toNat ≠ 1) ∨
      (i = .divmod ∧ s.b ≠ 0 ∧ 1 ≤ s.m.toNat ∧ Nat.gcd (s.b.toNat % s.m.toNat) s.m.toNat ≠ 1))

/-! ## What each command computes -/

/-- 40_addsub.md R80: ADDMOD with `M ≥ 1` gives `(A + B) mod M`, the sum unbounded. -/
def Obligations.AddmodResult : Prop :=
  ∀ s : State, 1 ≤ s.m.toNat →
    ∃ t, exec .addmod s = .next t ∧ t.r0.toNat = (s.a.toNat + s.b.toNat) % s.m.toNat ∧ Finished s t 0

/-- 40_addsub.md R83: SUBMOD with `M ≥ 1` gives the residue in `[0, M)` of the integer `A − B`. -/
def Obligations.SubmodResult : Prop :=
  ∀ s : State, 1 ≤ s.m.toNat →
    ∃ t, exec .submod s = .next t ∧ t.r0.toNat < s.m.toNat ∧
      (s.m.toNat : Int) ∣ ((s.a.toNat : Int) - s.b.toNat - t.r0.toNat) ∧ Finished s t 0

/-- 41_mulmod.md R90: MULMOD with `M ≥ 1` gives the exact product reduced modulo `M`. -/
def Obligations.MulmodResult : Prop :=
  ∀ s : State, 1 ≤ s.m.toNat →
    ∃ t, exec .mulmod s = .next t ∧ t.r0.toNat = s.a.toNat * s.b.toNat % s.m.toNat ∧ Finished s t 0

/-- 42_powmod.md R103, R105: POWMOD with `M ≥ 2` gives `(A mod M)^(B mod M) mod M`, hence `A^B mod M` when `B < M`; with
`M = 1` it gives 1. -/
def Obligations.PowmodResult : Prop :=
  ∀ s : State, 1 ≤ s.m.toNat →
    ∃ t, exec .powmod s = .next t ∧ Finished s t 0 ∧
      (2 ≤ s.m.toNat → t.r0.toNat = (s.a.toNat % s.m.toNat) ^ (s.b.toNat % s.m.toNat) % s.m.toNat) ∧
      (2 ≤ s.m.toNat → s.b.toNat < s.m.toNat → t.r0.toNat = s.a.toNat ^ s.b.toNat % s.m.toNat) ∧
      (s.m.toNat = 1 → t.r0.toNat = 1)

/-- 43_euclid_inverse.md R111: EGCD with `M ≥ 1` gives the gcd, a Bézout congruence modulo `M`, residues, the literal base
case, and the coefficients of the recursion. -/
def Obligations.EgcdResult : Prop :=
  ∀ s : State, 1 ≤ s.m.toNat →
    ∃ t, exec .egcd s = .next t ∧ Finished s t 0 ∧
      t.r0.toNat = Nat.gcd s.a.toNat s.b.toNat ∧
      (s.a.toNat * t.r1.toNat + s.b.toNat * t.r2.toNat) % s.m.toNat = t.r0.toNat % s.m.toNat ∧
      (s.a ≠ 0 → t.r1.toNat < s.m.toNat ∧ t.r2.toNat < s.m.toNat) ∧
      (s.a = 0 → t.r0 = s.b ∧ t.r1 = 0 ∧ t.r2 = 1) ∧
      egcd s.a.toNat s.b.toNat s.m.toNat = .ok (t.r0.toNat, t.r1.toNat, t.r2.toNat)

/-- 43_euclid_inverse.md R110: the recursion of `egcd`, its base case and its zero modulus. -/
def Obligations.EgcdRecursion : Prop :=
  (∀ b m, egcd 0 b m = .ok (b, 0, 1)) ∧
  (∀ a b m, a ≠ 0 → m ≠ 0 → ∃ g x1 y1, egcd (b % a) a m = .ok (g, x1, y1) ∧
    egcd a b m = .ok (g, submod y1 (mulmod (b / a) x1 m) m, x1)) ∧
  (∀ a b, a ≠ 0 → egcd a b 0 = .error .divideByZero)

/-- 43_euclid_inverse.md R113: EGCD with `M = 0` answers `(B, 0, 1)` when `A = 0`, and else DivideByZero with the results
kept. -/
def Obligations.EgcdZeroModulus : Prop :=
  ∀ s : State, s.m = 0 →
    (s.a = 0 → ∃ t, exec .egcd s = .next t ∧ t.r0 = s.b ∧ t.r1 = 0 ∧ t.r2 = 1 ∧ Finished s t 0) ∧
    (s.a ≠ 0 → ∃ t, exec .egcd s = .next t ∧ SameResults s t ∧ Finished s t 1)

/-- 43_euclid_inverse.md R117: MODINV with `M ≥ 2` and `gcd(A, M) = 1` gives the unique inverse below `M`; for a prime `M`
it is POWMOD's `A^(M−2)`. -/
def Obligations.ModinvResult : Prop :=
  ∀ s : State, 2 ≤ s.m.toNat → Nat.gcd s.a.toNat s.m.toNat = 1 →
    ∃ t, exec .modinv s = .next t ∧ Finished s t 0 ∧ t.r0.toNat < s.m.toNat ∧
      s.a.toNat * t.r0.toNat % s.m.toNat = 1 ∧
      (∀ x, x < s.m.toNat → s.a.toNat * x % s.m.toNat = 1 → x = t.r0.toNat) ∧
      (prime s.m.toNat → ∃ u, exec .powmod { s with b := s.m - 2 } = .next u ∧ u.err = 0 ∧ u.r0 = t.r0)

/-- 43_euclid_inverse.md R116, R118: MODINV's error cases in their order, and `M = 1`. -/
def Obligations.ModinvErrorsAndModulusOne : Prop :=
  ∀ s : State,
    (s.m = 0 → ∃ t, exec .modinv s = .next t ∧ SameResults s t ∧ Finished s t 1) ∧
    (1 ≤ s.m.toNat → Nat.gcd s.a.toNat s.m.toNat ≠ 1 →
      ∃ t, exec .modinv s = .next t ∧ SameResults s t ∧ Finished s t 2) ∧
    (s.m.toNat = 1 → ∃ t, exec .modinv s = .next t ∧ t.r0 = 0 ∧ Finished s t 0)

/-- 44_divmod.md R129: DIVMOD with `M ≥ 2`, `B ≠ 0`, `gcd(B, M) = 1` gives the unique quotient below `M`, and an `Ok`
result lies below `M` for every `M ≥ 1`. -/
def Obligations.DivmodResult : Prop :=
  ∀ s : State, 1 ≤ s.m.toNat →
    ∃ t, exec .divmod s = .next t ∧ (t.err = 0 → t.r0.toNat < s.m.toNat) ∧
      (2 ≤ s.m.toNat → s.b ≠ 0 → Nat.gcd s.b.toNat s.m.toNat = 1 →
        Finished s t 0 ∧ t.r0.toNat * s.b.toNat % s.m.toNat = s.a.toNat % s.m.toNat ∧
        (∀ v, v < s.m.toNat → v * s.b.toNat % s.m.toNat = s.a.toNat % s.m.toNat → v = t.r0.toNat))

/-- 44_divmod.md R125: with `M ≥ 1`, DIVMOD is DivideByZero for `B = 0`, and else MULMOD of `A` by MODINV's result on `B`,
a NoInverse of MODINV passed on. -/
def Obligations.DivmodIsMulmodByModinv : Prop :=
  ∀ s : State, 1 ≤ s.m.toNat →
    (s.b = 0 → ∃ t, exec .divmod s = .next t ∧ SameResults s t ∧ Finished s t 1) ∧
    (s.b ≠ 0 → ∃ u, exec .modinv { s with a := s.b } = .next u ∧
      (u.err ≠ 0 → ∃ t, exec .divmod s = .next t ∧ SameResults s t ∧ Finished s t u.err) ∧
      (u.err = 0 → ∃ t p, exec .divmod s = .next t ∧ exec .mulmod { s with b := u.r0 } = .next p ∧
        t.r0 = p.r0 ∧ Finished s t 0))

/-- 45_isprime.md R138, with the soundness constraint of 10_state.md R26 at the operand: ISPRIME gives 1 exactly when
`A` is prime, and 0 otherwise. -/
def Obligations.IsprimeDecidesPrimality : Prop :=
  ∀ s : State, SoundAt s.bounds s.a.toNat →
    ∃ t, exec .isprime s = .next t ∧ Finished s t 0 ∧
      (t.r0 = 1 ↔ prime s.a.toNat) ∧ (t.r0 = 0 ↔ ¬ prime s.a.toNat)

/-- 45_isprime.md R138 (its first half): a prime is accepted whatever the witness bounds are, sound or not. -/
def Obligations.IsprimeAcceptsEveryPrime : Prop :=
  ∀ s : State, prime s.a.toNat → ∃ t, exec .isprime s = .next t ∧ Finished s t 0 ∧ t.r0 = 1

/-- 45_isprime.md R131, R134: the trivial cases and trial division, whatever the witness bounds are. -/
def Obligations.IsprimeSmallCases : Prop :=
  ∀ s : State, ∃ t, exec .isprime s = .next t ∧ Finished s t 0 ∧
    (s.a.toNat < 2 → t.r0 = 0) ∧
    (s.a.toNat = 2 ∨ s.a.toNat = 3 → t.r0 = 1) ∧
    (2 < s.a.toNat → s.a.toNat % 2 = 0 → t.r0 = 0) ∧
    (∀ p ∈ witnessPrimes, 5 ≤ s.a.toNat → s.a.toNat % 2 = 1 → p ∣ s.a.toNat →
      t.r0 = if s.a.toNat ∈ witnessPrimes then 1 else 0)

/-- 45_isprime.md R136: for an operand that reaches the witnesses, the verdict is `true` exactly when some entry has
`A < WB[i]` with `WP[0..i]` all passing, or all thirteen witnesses pass. -/
def Obligations.IsprimeWitnessLoop : Prop :=
  ∀ s : State, ReachesWitnesses s.a.toNat →
    ∃ t, exec .isprime s = .next t ∧ Finished s t 0 ∧ (t.r0 = 1 ∨ t.r0 = 0) ∧
      (t.r0 = 1 ↔
        (∃ i, i < 13 ∧ s.a.toNat < (witnessBounds s.bounds).getD i 0 ∧
          ∀ j, j ≤ i → SPRP s.a.toNat (witnessPrimes.getD j 0)) ∨
        (∀ j, j < 13 → SPRP s.a.toNat (witnessPrimes.getD j 0)))

/-- 45_isprime.md R133: the decomposition `n − 1 = d · 2^s`. -/
def Obligations.OddPartDecomposes : Prop :=
  ∀ n, 5 ≤ n → n ≤ maxU64 → n % 2 = 1 →
    (oddPart n).1 % 2 = 1 ∧ 1 ≤ (oddPart n).2 ∧ (oddPart n).2 ≤ 63 ∧ 1 ≤ (oddPart n).1 ∧ (oddPart n).1 < n ∧
      (oddPart n).1 * 2 ^ (oddPart n).2 = n - 1

/-- 45_isprime.md R137: the evaluation with `powmod` and `mulmod` and the definition R132 agree. -/
def Obligations.WitnessEvaluationIsSPRP : Prop :=
  ∀ n p, n ≤ maxU64 → ReachesWitnesses n → p ∈ witnessPrimes →
    (witnessPasses n (oddPart n).1 (oddPart n).2 p = true ↔ SPRP n p)

/-- 46_isqrt.md R145: ISQRT gives the largest number whose square is at most `A`; it is at most `2^32 − 1`, and that for
every `A` from `0xFFFFFFFE00000001` up. -/
def Obligations.IsqrtResult : Prop :=
  ∀ s : State, ∃ t, exec .isqrt s = .next t ∧ Finished s t 0 ∧
    t.r0.toNat * t.r0.toNat ≤ s.a.toNat ∧ s.a.toNat < (t.r0.toNat + 1) * (t.r0.toNat + 1) ∧
    t.r0.toNat ≤ 4294967295 ∧ (0xFFFFFFFE00000001 ≤ s.a.toNat → t.r0.toNat = 4294967295)

/-- 46_isqrt.md R149: ISSQUARE gives 1 for a perfect square and 0 otherwise. -/
def Obligations.IssquareResult : Prop :=
  ∀ s : State, ∃ t, exec .issquare s = .next t ∧ Finished s t 0 ∧
    (t.r0 = 1 ↔ ∃ k, k * k = s.a.toNat) ∧ (t.r0 = 0 ↔ ¬ ∃ k, k * k = s.a.toNat)

/-- 40_addsub.md R87, 41_mulmod.md R95, 42_powmod.md R107, 43_euclid_inverse.md R119: the range laws. -/
def Obligations.ResultsLieBelowTheModulus : Prop :=
  ∀ (i : Instr) (s : State),
    (1 ≤ s.m.toNat ∧ (i = .addmod ∨ i = .submod ∨ i = .mulmod ∨ i = .modinv)) ∨ (2 ≤ s.m.toNat ∧ i = .powmod) →
    ∃ t, exec i s = .next t ∧ (t.err = 0 → t.r0.toNat < s.m.toNat)

/-! ## The evaluations the spec writes out give the same numbers -/

/-- 40_addsub.md R82: the overflow-safe evaluation on 64-bit values equals `addmod`, and its sum `r + ex` does not exceed
`MAX`. -/
def Obligations.OverflowSafeAddEqualsAddmod : Prop :=
  ∀ a b m : Word, 1 ≤ m.toNat →
    (addmodSafe a b m).toNat = (a.toNat + b.toNat) % m.toNat ∧
    (maxU64 - b.toNat < a.toNat → maxU64 % m.toNat + (a.toNat - (maxU64 - b.toNat)) % m.toNat ≤ maxU64)

/-- 40_addsub.md R85: the evaluation by two branches on 64-bit values equals `submod`. -/
def Obligations.BranchingSubtractEqualsSubmod : Prop :=
  ∀ a b m : Word, 1 ≤ m.toNat → (submodSafe a b m).toNat = submod a.toNat b.toNat m.toNat

/-- 41_mulmod.md R92, R93: the doubling evaluation on 64-bit values equals the exact product reduced. -/
def Obligations.DoublingMultiplyEqualsMulmod : Prop :=
  ∀ a b m : Word, 1 ≤ m.toNat → (mulmodDoubling a b m).toNat = a.toNat * b.toNat % m.toNat

/-- 42_powmod.md R102, for `m ≥ 2`, which covers the case it is reached in: square-and-multiply is exact. -/
def Obligations.SquareAndMultiplyIsExact : Prop :=
  ∀ a e m : Nat, e ≤ maxU64 → 2 ≤ m → sqmul a e m = a ^ e % m

/-- 46_isqrt.md R147: the digit-by-digit loop on 64-bit values computes `isqrt` (R145). The halving `y = y >> 1` in the
loop is a line R147 marks as supplied from general knowledge, not in source (93_implementation_defined.md G3). -/
def Obligations.DigitLoopEqualsIsqrt : Prop :=
  ∀ x : Word, (isqrtDigits x).toNat = isqrt x.toNat

/-! ## The byte map of a platform's bus -/

/-- 20_memory.md R41, the `BYTE_MAP` it recommends (log entry 8: OPEN, so the choice of a map is not the spec's), at any
base: the eight bytes at offset `8·i`, bits 7:0 at the lowest address, are register `i`. -/
def Obligations.RecommendedByteMapIsLittleEndian : Prop :=
  ∀ (s : State) (r : Reg) (v : Word) (rest : List HostAction), nextMover s = .host →
    s.bus.slots = recommendedByteMap →
    (s.script = .busWr (s.bus.base + 8 * r.index.toNat) (wordBytes v) :: rest →
      step s = step { s with script := .wr r v :: rest }) ∧
    (s.script = .busRd (s.bus.base + 8 * r.index.toNat) 8 :: rest →
      step s = .next { s with
        turns := s.turns.tail, script := rest,
        replies := s.replies ++ [.bus (s.bus.base + 8 * r.index.toNat) (wordBytes (s.readReg r))] })

/-- 20_memory.md R41, R44: nothing depends on `BASE` and `BYTE_MAP` but a bus access, so a step in which the host makes
none is the same step under any other map; and no step changes them. That they are carried in State is the model's choice
(log entry 8). -/
def Obligations.ByteMapMattersToBusAccessesOnly : Prop :=
  ∀ s t : State, step s = .next t →
    t.bus = s.bus ∧
    ((∀ act ∈ s.script.head?, onBus act = false) → ∀ bus : BusMap, step { s with bus := bus } = .next { t with bus := bus })
end

