-- ==== Sys2Proof/Laws/Flags.lean ====
section
/-! SUPPORT. Every field of `STATUS` after every way `STATUS` changes. -/

namespace Sys2Proof.Machine

@[simp] theorem statusBusy_accept (w : Word) : statusBusy (statusAccept w) = true := by
  simp [statusBusy, statusAccept]

@[simp] theorem statusDone_accept (w : Word) : statusDone (statusAccept w) = false := by
  simp [statusDone, statusAccept]

@[simp] theorem statusErr_accept (w : Word) : statusErr (statusAccept w) = 0 := by
  ext i hi
  have : i = 0 ∨ i = 1 := by omega
  rcases this with rfl | rfl <;> simp [statusErr, statusAccept]

@[simp] theorem statusOvr_accept (w : Word) : statusOvr (statusAccept w) = statusOvr w := by
  simp [statusOvr, statusAccept]

@[simp] theorem statusBusy_complete (w : Word) (e : BitVec 2) : statusBusy (statusComplete w e) = false := by
  simp [statusBusy, statusComplete]

@[simp] theorem statusDone_complete (w : Word) (e : BitVec 2) : statusDone (statusComplete w e) = true := by
  simp [statusDone, statusComplete]

@[simp] theorem statusErr_complete (w : Word) (e : BitVec 2) : statusErr (statusComplete w e) = e := by
  ext i hi
  have : i = 0 ∨ i = 1 := by omega
  rcases this with rfl | rfl <;> simp [statusErr, statusComplete]

@[simp] theorem statusOvr_complete (w : Word) (e : BitVec 2) : statusOvr (statusComplete w e) = statusOvr w := by
  simp [statusOvr, statusComplete]

@[simp] theorem statusBusy_overrun (w : Word) : statusBusy (statusOverrun w) = statusBusy w := by
  simp [statusBusy, statusOverrun]

@[simp] theorem statusDone_overrun (w : Word) : statusDone (statusOverrun w) = statusDone w := by
  simp [statusDone, statusOverrun]

@[simp] theorem statusErr_overrun (w : Word) : statusErr (statusOverrun w) = statusErr w := by
  ext i hi
  have : i = 0 ∨ i = 1 := by omega
  rcases this with rfl | rfl <;> simp [statusErr, statusOverrun]

@[simp] theorem statusOvr_overrun (w : Word) : statusOvr (statusOverrun w) = true := by
  simp [statusOvr, statusOverrun]

@[simp] theorem statusBusy_hostWrite (w v : Word) : statusBusy (statusHostWrite w v) = statusBusy w := by
  unfold statusHostWrite; split <;> simp [statusBusy]

@[simp] theorem statusDone_hostWrite (w v : Word) : statusDone (statusHostWrite w v) = statusDone w := by
  unfold statusHostWrite; split <;> simp [statusDone]

@[simp] theorem statusErr_hostWrite (w v : Word) : statusErr (statusHostWrite w v) = statusErr w := by
  unfold statusHostWrite; split
  · ext i hi
    have : i = 0 ∨ i = 1 := by omega
    rcases this with rfl | rfl <;> simp [statusErr]
  · rfl

@[simp] theorem statusOvr_hostWrite (w v : Word) :
    statusOvr (statusHostWrite w v) = (statusOvr w && !v.getLsbD 4) := by
  unfold statusHostWrite; split <;> simp_all [statusOvr]

/-! The reserved bits 63:5, and what a read of `STATUS` shows. -/

theorem lowMask_high (n i : Nat) (hn : n < 32) : (BitVec.ofNat 64 n).getLsbD (5 + i) = false := by
  simp only [BitVec.getLsbD_ofNat, Bool.and_eq_false_imp]
  intro _
  exact Nat.testBit_lt_two_pow (Nat.lt_of_lt_of_le hn (Nat.pow_le_pow_right (n := 2) (by omega) (by omega : 5 ≤ 5 + i)))

theorem highMask_high (n i : Nat) (hn : n < 32) (hi : i < 59) : (~~~BitVec.ofNat 64 n).getLsbD (5 + i) = true := by
  simp only [BitVec.getLsbD_not, lowMask_high n i hn]
  simp; omega

@[simp] theorem statusReserved_accept (w : Word) : statusReserved (statusAccept w) = statusReserved w := by
  ext i hi
  have h1 : (18446744073709551600#64).getLsbD (5 + i) = true := highMask_high 15 i (by omega) hi
  have h2 := lowMask_high 1 i (by omega)
  simp [statusReserved, statusAccept, h1, h2]
  
@[simp] theorem statusReserved_complete (w : Word) (e : BitVec 2) :
    statusReserved (statusComplete w e) = statusReserved w := by
  ext i hi
  have h1 : (18446744073709551600#64).getLsbD (5 + i) = true := highMask_high 15 i (by omega) hi
  have h2 := lowMask_high 2 i (by omega)
  have h3 : e.getLsbD (5 + i - 2) = false := BitVec.getLsbD_of_ge e _ (by omega)
  simp [statusReserved, statusComplete, h1, h2, h3]
@[simp] theorem statusReserved_overrun (w : Word) : statusReserved (statusOverrun w) = statusReserved w := by
  ext i hi
  have h := lowMask_high 16 i (by omega)
  simp [statusReserved, statusOverrun, h]

@[simp] theorem statusReserved_hostWrite (w v : Word) : statusReserved (statusHostWrite w v) = statusReserved w := by
  unfold statusHostWrite; split
  · ext i hi
    have h : (18446744073709551599#64).getLsbD (5 + i) = true := highMask_high 16 i (by omega) hi
    simp [statusReserved, h]
  · rfl

@[simp] theorem statusBusy_visible (w : Word) : statusBusy (statusVisible w) = statusBusy w := by
  simp [statusBusy, statusVisible]
@[simp] theorem statusDone_visible (w : Word) : statusDone (statusVisible w) = statusDone w := by
  simp [statusDone, statusVisible]
@[simp] theorem statusErr_visible (w : Word) : statusErr (statusVisible w) = statusErr w := by
  ext i hi
  have : i = 0 ∨ i = 1 := by omega
  rcases this with rfl | rfl <;> simp [statusErr, statusVisible]
@[simp] theorem statusOvr_visible (w : Word) : statusOvr (statusVisible w) = statusOvr w := by
  simp [statusOvr, statusVisible]
@[simp] theorem statusReserved_visible (w : Word) : statusReserved (statusVisible w) = 0 := by
  ext i hi
  have h := lowMask_high 31 i (by omega)
  simp [statusReserved, statusVisible, h]

end Sys2Proof.Machine
end

