-- ==== Sys2Proof/Laws/State.lean ====
section
/-! SUPPORT. One lemma per field per update of State, and the fields of `STATUS` after each update. -/

namespace Sys2Proof.Machine

/-! `State.accept`. -/

@[simp] theorem State.accept_a (s : State) (v : Word) : (s.accept v).a = s.a := rfl
@[simp] theorem State.accept_b (s : State) (v : Word) : (s.accept v).b = s.b := rfl
@[simp] theorem State.accept_m (s : State) (v : Word) : (s.accept v).m = s.m := rfl
@[simp] theorem State.accept_cmd (s : State) (v : Word) : (s.accept v).cmd = v := rfl
@[simp] theorem State.accept_status (s : State) (v : Word) : (s.accept v).status = statusAccept s.status := rfl
@[simp] theorem State.accept_r0 (s : State) (v : Word) : (s.accept v).r0 = s.r0 := rfl
@[simp] theorem State.accept_r1 (s : State) (v : Word) : (s.accept v).r1 = s.r1 := rfl
@[simp] theorem State.accept_r2 (s : State) (v : Word) : (s.accept v).r2 = s.r2 := rfl
@[simp] theorem State.accept_bounds (s : State) (v : Word) : (s.accept v).bounds = s.bounds := rfl
@[simp] theorem State.accept_bus (s : State) (v : Word) : (s.accept v).bus = s.bus := rfl
@[simp] theorem State.accept_script (s : State) (v : Word) : (s.accept v).script = s.script := rfl
@[simp] theorem State.accept_turns (s : State) (v : Word) : (s.accept v).turns = s.turns := rfl
@[simp] theorem State.accept_replies (s : State) (v : Word) : (s.accept v).replies = s.replies := rfl

@[simp] theorem State.accept_busy (s : State) (v : Word) : (s.accept v).busy = true := by
  simp [State.busy, State.accept]
@[simp] theorem State.accept_done (s : State) (v : Word) : (s.accept v).done = false := by
  simp [State.done, State.accept]
@[simp] theorem State.accept_err (s : State) (v : Word) : (s.accept v).err = 0 := by
  simp [State.err, State.accept]
@[simp] theorem State.accept_ovr (s : State) (v : Word) : (s.accept v).ovr = s.ovr := by
  simp [State.ovr, State.accept]

/-! `State.dropWrite`. -/

@[simp] theorem State.dropWrite_a (s : State) : (s.dropWrite).a = s.a := rfl
@[simp] theorem State.dropWrite_b (s : State) : (s.dropWrite).b = s.b := rfl
@[simp] theorem State.dropWrite_m (s : State) : (s.dropWrite).m = s.m := rfl
@[simp] theorem State.dropWrite_cmd (s : State) : (s.dropWrite).cmd = s.cmd := rfl
@[simp] theorem State.dropWrite_status (s : State) : (s.dropWrite).status = statusOverrun s.status := rfl
@[simp] theorem State.dropWrite_r0 (s : State) : (s.dropWrite).r0 = s.r0 := rfl
@[simp] theorem State.dropWrite_r1 (s : State) : (s.dropWrite).r1 = s.r1 := rfl
@[simp] theorem State.dropWrite_r2 (s : State) : (s.dropWrite).r2 = s.r2 := rfl
@[simp] theorem State.dropWrite_bounds (s : State) : (s.dropWrite).bounds = s.bounds := rfl
@[simp] theorem State.dropWrite_bus (s : State) : (s.dropWrite).bus = s.bus := rfl
@[simp] theorem State.dropWrite_script (s : State) : (s.dropWrite).script = s.script := rfl
@[simp] theorem State.dropWrite_turns (s : State) : (s.dropWrite).turns = s.turns := rfl
@[simp] theorem State.dropWrite_replies (s : State) : (s.dropWrite).replies = s.replies := rfl

@[simp] theorem State.dropWrite_busy (s : State) : (s.dropWrite).busy = s.busy := by
  simp [State.busy, State.dropWrite]
@[simp] theorem State.dropWrite_done (s : State) : (s.dropWrite).done = s.done := by
  simp [State.done, State.dropWrite]
@[simp] theorem State.dropWrite_err (s : State) : (s.dropWrite).err = s.err := by
  simp [State.err, State.dropWrite]
@[simp] theorem State.dropWrite_ovr (s : State) : (s.dropWrite).ovr = true := by
  simp [State.ovr, State.dropWrite]

/-! `State.takeError`. -/

@[simp] theorem State.takeError_a (s : State) (k : ErrKind) : (s.takeError k).a = s.a := rfl
@[simp] theorem State.takeError_b (s : State) (k : ErrKind) : (s.takeError k).b = s.b := rfl
@[simp] theorem State.takeError_m (s : State) (k : ErrKind) : (s.takeError k).m = s.m := rfl
@[simp] theorem State.takeError_cmd (s : State) (k : ErrKind) : (s.takeError k).cmd = s.cmd := rfl
@[simp] theorem State.takeError_status (s : State) (k : ErrKind) : (s.takeError k).status = statusComplete s.status (errCode k) := rfl
@[simp] theorem State.takeError_r0 (s : State) (k : ErrKind) : (s.takeError k).r0 = s.r0 := rfl
@[simp] theorem State.takeError_r1 (s : State) (k : ErrKind) : (s.takeError k).r1 = s.r1 := rfl
@[simp] theorem State.takeError_r2 (s : State) (k : ErrKind) : (s.takeError k).r2 = s.r2 := rfl
@[simp] theorem State.takeError_bounds (s : State) (k : ErrKind) : (s.takeError k).bounds = s.bounds := rfl
@[simp] theorem State.takeError_bus (s : State) (k : ErrKind) : (s.takeError k).bus = s.bus := rfl
@[simp] theorem State.takeError_script (s : State) (k : ErrKind) : (s.takeError k).script = s.script := rfl
@[simp] theorem State.takeError_turns (s : State) (k : ErrKind) : (s.takeError k).turns = s.turns := rfl
@[simp] theorem State.takeError_replies (s : State) (k : ErrKind) : (s.takeError k).replies = s.replies := rfl

@[simp] theorem State.takeError_busy (s : State) (k : ErrKind) : (s.takeError k).busy = false := by
  simp [State.busy, State.takeError]
@[simp] theorem State.takeError_done (s : State) (k : ErrKind) : (s.takeError k).done = true := by
  simp [State.done, State.takeError]
@[simp] theorem State.takeError_err (s : State) (k : ErrKind) : (s.takeError k).err = errCode k := by
  simp [State.err, State.takeError]
@[simp] theorem State.takeError_ovr (s : State) (k : ErrKind) : (s.takeError k).ovr = s.ovr := by
  simp [State.ovr, State.takeError]

/-! `State.hostRead`. -/

@[simp] theorem State.hostRead_a (s : State) (r : Reg) : (s.hostRead r).a = s.a := rfl
@[simp] theorem State.hostRead_b (s : State) (r : Reg) : (s.hostRead r).b = s.b := rfl
@[simp] theorem State.hostRead_m (s : State) (r : Reg) : (s.hostRead r).m = s.m := rfl
@[simp] theorem State.hostRead_cmd (s : State) (r : Reg) : (s.hostRead r).cmd = s.cmd := rfl
@[simp] theorem State.hostRead_status (s : State) (r : Reg) : (s.hostRead r).status = s.status := rfl
@[simp] theorem State.hostRead_r0 (s : State) (r : Reg) : (s.hostRead r).r0 = s.r0 := rfl
@[simp] theorem State.hostRead_r1 (s : State) (r : Reg) : (s.hostRead r).r1 = s.r1 := rfl
@[simp] theorem State.hostRead_r2 (s : State) (r : Reg) : (s.hostRead r).r2 = s.r2 := rfl
@[simp] theorem State.hostRead_bounds (s : State) (r : Reg) : (s.hostRead r).bounds = s.bounds := rfl
@[simp] theorem State.hostRead_bus (s : State) (r : Reg) : (s.hostRead r).bus = s.bus := rfl
@[simp] theorem State.hostRead_script (s : State) (r : Reg) : (s.hostRead r).script = s.script := rfl
@[simp] theorem State.hostRead_turns (s : State) (r : Reg) : (s.hostRead r).turns = s.turns := rfl
@[simp] theorem State.hostRead_replies (s : State) (r : Reg) : (s.hostRead r).replies = s.replies ++ [.port r (s.readReg r)] := rfl

@[simp] theorem State.hostRead_busy (s : State) (r : Reg) : (s.hostRead r).busy = s.busy := by
  simp [State.busy, State.hostRead]
@[simp] theorem State.hostRead_done (s : State) (r : Reg) : (s.hostRead r).done = s.done := by
  simp [State.done, State.hostRead]
@[simp] theorem State.hostRead_err (s : State) (r : Reg) : (s.hostRead r).err = s.err := by
  simp [State.err, State.hostRead]
@[simp] theorem State.hostRead_ovr (s : State) (r : Reg) : (s.hostRead r).ovr = s.ovr := by
  simp [State.ovr, State.hostRead]

/-! `State.busRead`. -/

@[simp] theorem State.busRead_a (s : State) (slot : BusSlot) (address : Nat) : (s.busRead slot address).a = s.a := rfl
@[simp] theorem State.busRead_b (s : State) (slot : BusSlot) (address : Nat) : (s.busRead slot address).b = s.b := rfl
@[simp] theorem State.busRead_m (s : State) (slot : BusSlot) (address : Nat) : (s.busRead slot address).m = s.m := rfl
@[simp] theorem State.busRead_cmd (s : State) (slot : BusSlot) (address : Nat) : (s.busRead slot address).cmd = s.cmd := rfl
@[simp] theorem State.busRead_status (s : State) (slot : BusSlot) (address : Nat) : (s.busRead slot address).status = s.status := rfl
@[simp] theorem State.busRead_r0 (s : State) (slot : BusSlot) (address : Nat) : (s.busRead slot address).r0 = s.r0 := rfl
@[simp] theorem State.busRead_r1 (s : State) (slot : BusSlot) (address : Nat) : (s.busRead slot address).r1 = s.r1 := rfl
@[simp] theorem State.busRead_r2 (s : State) (slot : BusSlot) (address : Nat) : (s.busRead slot address).r2 = s.r2 := rfl
@[simp] theorem State.busRead_bounds (s : State) (slot : BusSlot) (address : Nat) : (s.busRead slot address).bounds = s.bounds := rfl
@[simp] theorem State.busRead_bus (s : State) (slot : BusSlot) (address : Nat) : (s.busRead slot address).bus = s.bus := rfl
@[simp] theorem State.busRead_script (s : State) (slot : BusSlot) (address : Nat) : (s.busRead slot address).script = s.script := rfl
@[simp] theorem State.busRead_turns (s : State) (slot : BusSlot) (address : Nat) : (s.busRead slot address).turns = s.turns := rfl
@[simp] theorem State.busRead_replies (s : State) (slot : BusSlot) (address : Nat) : (s.busRead slot address).replies = s.replies ++ [.bus address (slotBytes slot (s.readReg slot.reg))] := rfl

@[simp] theorem State.busRead_busy (s : State) (slot : BusSlot) (address : Nat) : (s.busRead slot address).busy = s.busy := by
  simp [State.busy, State.busRead]
@[simp] theorem State.busRead_done (s : State) (slot : BusSlot) (address : Nat) : (s.busRead slot address).done = s.done := by
  simp [State.done, State.busRead]
@[simp] theorem State.busRead_err (s : State) (slot : BusSlot) (address : Nat) : (s.busRead slot address).err = s.err := by
  simp [State.err, State.busRead]
@[simp] theorem State.busRead_ovr (s : State) (slot : BusSlot) (address : Nat) : (s.busRead slot address).ovr = s.ovr := by
  simp [State.ovr, State.busRead]

/-! `State.resetRegs`. -/

@[simp] theorem State.resetRegs_a (s : State) : s.resetRegs.a = 0 := rfl
@[simp] theorem State.resetRegs_b (s : State) : s.resetRegs.b = 0 := rfl
@[simp] theorem State.resetRegs_m (s : State) : s.resetRegs.m = 0 := rfl
@[simp] theorem State.resetRegs_cmd (s : State) : s.resetRegs.cmd = 0 := rfl
@[simp] theorem State.resetRegs_status (s : State) : s.resetRegs.status = 0 := rfl
@[simp] theorem State.resetRegs_r0 (s : State) : s.resetRegs.r0 = 0 := rfl
@[simp] theorem State.resetRegs_r1 (s : State) : s.resetRegs.r1 = 0 := rfl
@[simp] theorem State.resetRegs_r2 (s : State) : s.resetRegs.r2 = 0 := rfl
@[simp] theorem State.resetRegs_bounds (s : State) : s.resetRegs.bounds = s.bounds := rfl
@[simp] theorem State.resetRegs_bus (s : State) : s.resetRegs.bus = s.bus := rfl
@[simp] theorem State.resetRegs_script (s : State) : s.resetRegs.script = s.script := rfl
@[simp] theorem State.resetRegs_turns (s : State) : s.resetRegs.turns = s.turns := rfl
@[simp] theorem State.resetRegs_replies (s : State) : s.resetRegs.replies = s.replies := rfl

@[simp] theorem State.resetRegs_busy (s : State) : s.resetRegs.busy = false := by
  simp [State.busy, statusBusy]
@[simp] theorem State.resetRegs_done (s : State) : s.resetRegs.done = false := by
  simp [State.done, statusDone]
@[simp] theorem State.resetRegs_err (s : State) : s.resetRegs.err = 0 := by
  simp [State.err, statusErr]
@[simp] theorem State.resetRegs_ovr (s : State) : s.resetRegs.ovr = false := by
  simp [State.ovr, statusOvr]

/-! `State.complete`. -/

@[simp] theorem State.complete_a (s : State) (o : CmdOutcome) : (s.complete o).a = s.a := by cases o <;> rfl
@[simp] theorem State.complete_b (s : State) (o : CmdOutcome) : (s.complete o).b = s.b := by cases o <;> rfl
@[simp] theorem State.complete_m (s : State) (o : CmdOutcome) : (s.complete o).m = s.m := by cases o <;> rfl
@[simp] theorem State.complete_cmd (s : State) (o : CmdOutcome) : (s.complete o).cmd = s.cmd := by cases o <;> rfl
@[simp] theorem State.complete_bounds (s : State) (o : CmdOutcome) : (s.complete o).bounds = s.bounds := by cases o <;> rfl
@[simp] theorem State.complete_bus (s : State) (o : CmdOutcome) : (s.complete o).bus = s.bus := by cases o <;> rfl
@[simp] theorem State.complete_script (s : State) (o : CmdOutcome) : (s.complete o).script = s.script := by cases o <;> rfl
@[simp] theorem State.complete_turns (s : State) (o : CmdOutcome) : (s.complete o).turns = s.turns := by cases o <;> rfl
@[simp] theorem State.complete_replies (s : State) (o : CmdOutcome) : (s.complete o).replies = s.replies := by cases o <;> rfl
@[simp] theorem State.complete_ok1_r0 (s : State) (v0 : Word) : (s.complete (.ok1 v0)).r0 = v0 := rfl
@[simp] theorem State.complete_ok1_r1 (s : State) (v0 : Word) : (s.complete (.ok1 v0)).r1 = s.r1 := rfl
@[simp] theorem State.complete_ok1_r2 (s : State) (v0 : Word) : (s.complete (.ok1 v0)).r2 = s.r2 := rfl
@[simp] theorem State.complete_ok1_status (s : State) (v0 : Word) : (s.complete (.ok1 v0)).status = statusComplete s.status errNone := rfl
@[simp] theorem State.complete_ok3_r0 (s : State) (v0 v1 v2 : Word) : (s.complete (.ok3 v0 v1 v2)).r0 = v0 := rfl
@[simp] theorem State.complete_ok3_r1 (s : State) (v0 v1 v2 : Word) : (s.complete (.ok3 v0 v1 v2)).r1 = v1 := rfl
@[simp] theorem State.complete_ok3_r2 (s : State) (v0 v1 v2 : Word) : (s.complete (.ok3 v0 v1 v2)).r2 = v2 := rfl
@[simp] theorem State.complete_ok3_status (s : State) (v0 v1 v2 : Word) : (s.complete (.ok3 v0 v1 v2)).status = statusComplete s.status errNone := rfl
@[simp] theorem State.complete_err (s : State) (k : ErrKind) : s.complete (.err k) = s.takeError k := rfl
@[simp] theorem State.complete_busy (s : State) (o : CmdOutcome) : (s.complete o).busy = false := by
  cases o <;> simp [State.busy]
@[simp] theorem State.complete_done (s : State) (o : CmdOutcome) : (s.complete o).done = true := by
  cases o <;> simp [State.done]
@[simp] theorem State.complete_ovr (s : State) (o : CmdOutcome) : (s.complete o).ovr = s.ovr := by
  cases o <;> simp [State.ovr]
@[simp] theorem State.complete_ok1_err (s : State) (v0 : Word) : (s.complete (.ok1 v0)).err = 0 := by
  simp [State.err, errNone]
@[simp] theorem State.complete_ok3_err (s : State) (v0 v1 v2 : Word) : (s.complete (.ok3 v0 v1 v2)).err = 0 := by
  simp [State.err, errNone]
@[simp] theorem State.complete_reserved (s : State) (o : CmdOutcome) : statusReserved (s.complete o).status = statusReserved s.status := by
  cases o <;> simp

/-! `State.hostWrite`: what no host write changes. -/

@[simp] theorem State.hostWrite_r0 (s : State) (r : Reg) (v : Word) : (s.hostWrite r v).r0 = s.r0 := by
  cases r <;> simp only [State.hostWrite] <;> first | rfl | (split <;> rfl)
@[simp] theorem State.hostWrite_r1 (s : State) (r : Reg) (v : Word) : (s.hostWrite r v).r1 = s.r1 := by
  cases r <;> simp only [State.hostWrite] <;> first | rfl | (split <;> rfl)
@[simp] theorem State.hostWrite_r2 (s : State) (r : Reg) (v : Word) : (s.hostWrite r v).r2 = s.r2 := by
  cases r <;> simp only [State.hostWrite] <;> first | rfl | (split <;> rfl)
@[simp] theorem State.hostWrite_bounds (s : State) (r : Reg) (v : Word) : (s.hostWrite r v).bounds = s.bounds := by
  cases r <;> simp only [State.hostWrite] <;> first | rfl | (split <;> rfl)
@[simp] theorem State.hostWrite_bus (s : State) (r : Reg) (v : Word) : (s.hostWrite r v).bus = s.bus := by
  cases r <;> simp only [State.hostWrite] <;> first | rfl | (split <;> rfl)
@[simp] theorem State.hostWrite_script (s : State) (r : Reg) (v : Word) : (s.hostWrite r v).script = s.script := by
  cases r <;> simp only [State.hostWrite] <;> first | rfl | (split <;> rfl)
@[simp] theorem State.hostWrite_turns (s : State) (r : Reg) (v : Word) : (s.hostWrite r v).turns = s.turns := by
  cases r <;> simp only [State.hostWrite] <;> first | rfl | (split <;> rfl)
@[simp] theorem State.hostWrite_replies (s : State) (r : Reg) (v : Word) : (s.hostWrite r v).replies = s.replies := by
  cases r <;> simp only [State.hostWrite] <;> first | rfl | (split <;> rfl)

end Sys2Proof.Machine
end

