-- ==== Sys2Proof/Laws/Ops.lean ====
section
/-! SUPPORT. What each shared operation can do, said once. -/

namespace Sys2Proof.Machine

/-- A host write while idle. -/
theorem State.hostWrite_idle (s : State) (r : Reg) (v : Word) (h : s.busy = false) :
    s.hostWrite r v =
      match r with
      | .a => { s with a := v }
      | .b => { s with b := v }
      | .m => { s with m := v }
      | .cmd => s.accept v
      | .status => { s with status := statusHostWrite s.status v }
      | .r0 => s
      | .r1 => s
      | .r2 => s := by
  cases r <;> simp [State.hostWrite, h]

/-- A host write while busy: a write of `A`, `B`, `M` or `CMD` is dropped. -/
theorem State.hostWrite_busy (s : State) (r : Reg) (v : Word) (h : s.busy = true) :
    s.hostWrite r v =
      match r with
      | .a => s.dropWrite
      | .b => s.dropWrite
      | .m => s.dropWrite
      | .cmd => s.dropWrite
      | .status => { s with status := statusHostWrite s.status v }
      | .r0 => s
      | .r1 => s
      | .r2 => s := by
  cases r <;> simp [State.hostWrite, h]

/-- Every command completes: its meaning is the completion with its outcome. -/
theorem exec_eq_complete (i : Instr) (s : State) :
    exec i s = .next (s.complete (outcomeOf s.bounds i s.a s.b s.m)) := by
  cases i <;> rfl

/-- The number a word carries is the number put in, if it fits. -/
@[simp] theorem toNat_toWord (n : Nat) : (toWord n).toNat = n % 2 ^ 64 := BitVec.toNat_ofNat n 64

theorem toNat_toWord_of_lt {n : Nat} (h : n < 2 ^ 64) : (toWord n).toNat = n := by
  simp only [toNat_toWord, Nat.mod_eq_of_lt h]

/-- A remainder by a word's number fits a word. -/
theorem toNat_toWord_of_lt_word {n : Nat} (m : Word) (h : n < m.toNat) : (toWord n).toNat = n :=
  toNat_toWord_of_lt (Nat.lt_trans h m.isLt)

/-- A word is zero exactly when its number is. -/
theorem word_eq_zero_iff (m : Word) : m = 0#64 ↔ m.toNat = 0 := by
  constructor
  · rintro rfl; rfl
  · intro h; exact BitVec.eq_of_toNat_eq (by simpa using h)

@[simp] theorem boolWord_eq_one (v : Bool) : boolWord v = 1#64 ↔ v = true := by cases v <;> decide

@[simp] theorem boolWord_eq_zero (v : Bool) : boolWord v = 0#64 ↔ v = false := by cases v <;> decide

/-- The fuel of `egcdLoop` is enough when it is at least the first argument. -/
theorem egcdLoop_fuel (f a b m : Nat) (h : a ≤ f) : egcdLoop f a b m = egcdLoop a a b m := by
  induction a using Nat.strongRecOn generalizing f b with
  | _ a ih =>
    cases a with
    | zero => cases f <;> simp [egcdLoop]
    | succ a =>
      cases f with
      | zero => omega
      | succ f =>
        have hlt : b % (a + 1) < a + 1 := Nat.mod_lt _ (by omega)
        simp only [egcdLoop]
        rw [ih _ hlt f (a + 1) (by omega), ih _ hlt a (a + 1) (by omega)]

/-- The errors `egcd` can end with. -/
theorem egcdLoop_error {f a b m : Nat} {k : ErrKind} (h : egcdLoop f a b m = .error k) : k = .divideByZero := by
  induction f generalizing a b with
  | zero => simp [egcdLoop] at h
  | succ f ih =>
    simp only [egcdLoop] at h
    split at h
    · cases h
    · split at h
      · rename_i hk
        cases h
        exact ih hk
      · split at h
        · cases h; rfl
        · cases h

/-- The errors `modinv` can end with. -/
theorem modinv_error {a m : Nat} {k : ErrKind} (h : modinv a m = .error k) : k = .divideByZero ∨ k = .noInverse := by
  simp only [modinv, egcd] at h
  split at h
  · rename_i hk
    cases h
    exact .inl (egcdLoop_error hk)
  · split at h
    · cases h; exact .inr rfl
    · cases h

/-- The errors `divmod` can end with. -/
theorem divmod_error {a b m : Nat} {k : ErrKind} (h : divmod a b m = .error k) :
    k = .divideByZero ∨ k = .noInverse := by
  simp only [divmod] at h
  split at h
  · cases h; exact .inl rfl
  · split at h
    · rename_i hk
      cases h
      exact modinv_error hk
    · cases h

/-- A command raises only the error kinds listed for it. -/
theorem outcomeOf_err_mem {bounds : OpenBounds} {i : Instr} {a b m : Word} {k : ErrKind}
    (h : outcomeOf bounds i a b m = .err k) : k ∈ errorsOf i := by
  cases i <;> simp only [outcomeOf, addmodOutcome, submodOutcome, mulmodOutcome, powmodOutcome, egcdOutcome,
    modinvOutcome, divmodOutcome, isprimeOutcome, isqrtOutcome, issquareOutcome, egcd] at h <;>
    simp only [errorsOf]
  case egcd =>
    split at h
    · rename_i hk
      cases h
      simp [egcdLoop_error hk]
    · cases h
  case modinv =>
    split at h
    · cases h; simp
    · split at h
      · rename_i hk
        cases h
        simpa using modinv_error hk
      · cases h
  case divmod =>
    split at h
    · cases h; simp
    · split at h
      · cases h; simp
      · split at h
        · rename_i hk
          cases h
          simpa using divmod_error hk
        · cases h
  all_goals first
    | cases h
    | (split at h <;> cases h; simp)

/-- A bus access names a slot exactly when it is one whole register. -/
theorem slotAt_isSome (bus : BusMap) (address width : Nat) :
    (slotAt bus address width).isSome = wholeRegister bus.base address width := by
  unfold slotAt wholeRegister
  have h8 : (address - bus.base) / 8 < 8 ↔ address - bus.base < 64 := by omega
  split <;> simp_all

/-- The access at offset `8·j` names slot `j`. -/
theorem slotAt_slot (bus : BusMap) (j : Fin 8) : slotAt bus (bus.base + 8 * j.val) 8 = some bus.slots[j] := by
  unfold slotAt
  have hj := j.isLt
  rw [dif_pos ⟨by omega, by omega, by omega, rfl⟩]
  simp

/-- A write puts each bit of the value where its place says. -/
@[simp] theorem slotWord_getLsbD (slot : BusSlot) (bytes : List Byte) (k : Fin 64) :
    (slotWord slot bytes).getLsbD k.val = placeBit bytes slot.place[k] := by
  simp [slotWord]

@[simp] theorem slotBytes_length (slot : BusSlot) (v : Word) : (slotBytes slot v).length = 8 := by simp [slotBytes]

/-- What a read puts at a place. -/
@[simp] theorem placeBit_slotBytes (slot : BusSlot) (v : Word) (p : Fin 64) :
    placeBit (slotBytes slot v) p = slotBit slot v p.val := by
  have h1 : p.val / 8 < 8 := by omega
  have h2 : p.val % 8 < 8 := by omega
  have h3 : 8 * (p.val / 8) + p.val % 8 = p.val := by omega
  simp [placeBit, slotBytes, h1, h2, h3]

/-- In a well-formed slot the bit at the place of `k` is bit `k`. -/
theorem slotBit_place {slot : BusSlot} (hw : slot.wf) (v : Word) (k : Fin 64) :
    slotBit slot v slot.place[k].val = v.getLsbD k.val := by
  rw [Bool.eq_iff_iff]
  simp only [slotBit, List.any_eq_true, List.mem_finRange, true_and, Bool.and_eq_true, beq_iff_eq]
  refine ⟨fun ⟨l, hl, hv⟩ => ?_, fun hv => ⟨k, rfl, hv⟩⟩
  rwa [hw l k (Fin.ext hl)] at hv

/-- A word written through a well-formed slot and read back through it is the same word. -/
theorem slotWord_slotBytes {slot : BusSlot} (hw : slot.wf) (v : Word) : slotWord slot (slotBytes slot v) = v := by
  refine BitVec.eq_of_getLsbD_eq fun k hk => ?_
  have := slotWord_getLsbD slot (slotBytes slot v) ⟨k, hk⟩
  rw [this, placeBit_slotBytes, slotBit_place hw]

/-- The little-endian slot loses no bit. -/
theorem littleEndianSlot_wf (r : Reg) : (littleEndianSlot r).wf := fun k l h => by simpa [littleEndianSlot] using h

/-- The bytes of a little-endian slot are the bytes of the word, lowest first. -/
theorem slotBytes_littleEndian (r : Reg) (v : Word) : slotBytes (littleEndianSlot r) v = wordBytes v := by
  have hbit : ∀ p, p < 64 → slotBit (littleEndianSlot r) v p = v.getLsbD p := fun p hp => by
    have := slotBit_place (littleEndianSlot_wf r) v ⟨p, hp⟩
    simpa [littleEndianSlot] using this
  have hbyte : ∀ d, d < 8 →
      (BitVec.ofFnLE fun e : Fin 8 => slotBit (littleEndianSlot r) v (8 * d + e.val)) = v.extractLsb' (8 * d) 8 :=
    fun d hd => BitVec.eq_of_getLsbD_eq fun i hi => by simp [hi, hbit (8 * d + i) (by omega)]
  simp only [slotBytes, wordBytes, List.range_succ, List.range_zero, List.nil_append, List.map_cons, List.map_nil,
    List.cons_append, hbyte 0 (by omega), hbyte 1 (by omega), hbyte 2 (by omega), hbyte 3 (by omega),
    hbyte 4 (by omega), hbyte 5 (by omega), hbyte 6 (by omega), hbyte 7 (by omega)]

/-- The word of a little-endian slot is the word its bytes list, lowest first. -/
theorem slotWord_littleEndian (r : Reg) (v : Word) : slotWord (littleEndianSlot r) (wordBytes v) = v := by
  rw [← slotBytes_littleEndian r, slotWord_slotBytes (littleEndianSlot_wf r)]

end Sys2Proof.Machine
end

