-- ==== Sys2Proof/Laws/Events.lean ====
section
/-! SUPPORT. What one event can do, said once: the inversion of the host's turn, the engine's turn and the step. -/

namespace Sys2Proof.Machine

/-- The engine's completion always answers a next state: the outcome of the word in `CMD`. -/
theorem engineComplete_eq (s : State) :
    engineComplete s = .next (s.complete (outcomeOfWord s.bounds s.cmd s.a s.b s.m)) := by
  unfold engineComplete outcomeOfWord
  cases decode s.cmd with
  | command i => exact exec_eq_complete i s
  | illegal w => rfl

/-- The host's action, as the write, the read, the bus read or the poll it performs. -/
inductive HostEffect (act : HostAction) (rest : List HostAction) (s t : State) : Prop where
  | write (r : Reg) (v : Word) (hw : portWriteOf s.bus act = some (r, v))
      (h : t = State.hostWrite { s with script := rest } r v)
  | read (r : Reg) (hw : portWriteOf s.bus act = none) (h : t = State.hostRead { s with script := rest } r)
  | busRead (slot : BusSlot) (address : Nat) (hw : portWriteOf s.bus act = none)
      (h : t = State.busRead { s with script := rest } slot address)
  | poll (hw : act = .wait) (h : t = waitPoll s rest)

/-- If a host action answers a next state, that state is a host write, a host read, a bus read or a poll. -/
theorem hostAction_next {act : HostAction} {rest : List HostAction} {s t : State}
    (h : hostAction act rest s = .next t) : HostEffect act rest s t := by
  cases act with
  | wr r v => simp only [hostAction] at h; cases h; exact .write r v rfl rfl
  | rd r => simp only [hostAction] at h; cases h; exact .read r rfl rfl
  | wait => simp only [hostAction] at h; cases h; exact .poll rfl rfl
  | busWr address bytes =>
    simp only [hostAction] at h
    split at h
    · rename_i slot hr; cases h; exact .write slot.reg _ (by simp [portWriteOf, hr]) rfl
    · cases h
  | busRd address width =>
    simp only [hostAction] at h
    split at h
    · cases h; exact .busRead _ _ rfl rfl
    · cases h

/-- No host action changes the result registers, the witness bounds, the bus map or the turns. -/
theorem HostEffect.frame {act : HostAction} {rest : List HostAction} {s t : State} (h : HostEffect act rest s t) :
    t.r0 = s.r0 ∧ t.r1 = s.r1 ∧ t.r2 = s.r2 ∧ t.bounds = s.bounds ∧ t.bus = s.bus ∧ t.turns = s.turns := by
  rcases h with ⟨r, v, _, rfl⟩ | ⟨r, _, rfl⟩ | ⟨slot, address, _, rfl⟩ | ⟨_, rfl⟩
  · simp
  · simp
  · simp
  · unfold waitPoll; split <;> simp

/-- A well-formed host action answers a next state. -/
theorem hostAction_wf {act : HostAction} {s : State} (hw : act.wf s.bus.base = true) (rest : List HostAction) :
    ∃ t, hostAction act rest s = .next t := by
  cases act with
  | wr r v => exact ⟨_, rfl⟩
  | rd r => exact ⟨_, rfl⟩
  | wait => exact ⟨_, rfl⟩
  | busWr address bytes =>
    have h : (slotAt s.bus address bytes.length).isSome = true := by rw [slotAt_isSome]; exact hw
    obtain ⟨r, hr⟩ := Option.isSome_iff_exists.mp h
    exact ⟨_, by simp only [hostAction, hr]; rfl⟩
  | busRd address width =>
    have h : (slotAt s.bus address width).isSome = true := by rw [slotAt_isSome]; exact hw
    obtain ⟨r, hr⟩ := Option.isSome_iff_exists.mp h
    exact ⟨_, by simp only [hostAction, hr]; rfl⟩

/-- When the host moves next, a step is its next action. -/
theorem step_host {s : State} {act : HostAction} {rest : List HostAction} (h : nextMover s = .host)
    (hs : s.script = act :: rest) : step s = hostAction act rest { s with turns := s.turns.tail } := by
  obtain ⟨regs, bounds, bus, script, turns, replies⟩ := s
  simp only at hs
  subst hs
  cases turns with
  | nil =>
    simp only [nextMover] at h
    split at h
    · cases h
    · rename_i hb
      simp only [step, nextEvent]
      rw [if_neg hb]
      rfl
  | cons t ts => simp only [nextMover] at h; subst h; rfl

/-- When the engine moves next and the block is busy, a step is `COMPLETE`. -/
theorem step_engine {s : State} (hb : s.busy = true) (h : nextMover s = .engine) :
    step s = engineComplete { s with turns := s.turns.tail } := by
  obtain ⟨regs, bounds, bus, script, turns, replies⟩ := s
  cases turns with
  | nil =>
    simp only [step, nextEvent]
    rw [if_pos hb]
    unfold engineTurn
    rw [if_pos hb]
    rfl
  | cons t ts =>
    simp only [nextMover] at h
    subst h
    simp only [step, nextEvent, engineTurn]
    exact if_pos hb

/-- When the reset source moves next, a step is the reset. -/
theorem step_reset {s : State} (h : nextMover s = .reset) :
    step s = .next (State.resetRegs { s with turns := s.turns.tail }) := by
  obtain ⟨regs, bounds, bus, script, turns, replies⟩ := s
  cases turns with
  | nil => simp only [nextMover] at h; split at h <;> cases h
  | cons t ts => simp only [nextMover] at h; subst h; rfl

/-- When the engine moves next and the block is idle, or the host moves next with nothing to do, the turn passes. -/
theorem step_passes {s : State}
    (h : (nextMover s = .engine ∧ s.busy = false) ∨ (nextMover s = .host ∧ s.script = [])) :
    step s = .next { s with turns := s.turns.tail } := by
  obtain ⟨regs, bounds, bus, script, turns, replies⟩ := s
  rcases h with ⟨hm, hb⟩ | ⟨hm, hs⟩
  · cases turns with
    | nil =>
      have : nextMover ⟨regs, bounds, bus, script, [], replies⟩ = .host := by simp [nextMover, hb]
      rw [this] at hm
      cases hm
    | cons t ts =>
      simp only [nextMover] at hm
      subst hm
      simp only [step, nextEvent, engineTurn]
      have hb' : State.busy ⟨regs, bounds, bus, script, ts, replies⟩ = false := hb
      exact if_neg (by rw [hb']; exact Bool.false_ne_true)
  · simp only at hs
    subst hs
    cases turns with
    | nil =>
      simp only [nextMover] at hm
      split at hm
      · cases hm
      · rename_i hb
        simp only [step, nextEvent]
        rw [if_neg hb]
        rfl
    | cons t ts => simp only [nextMover] at hm; subst hm; rfl

/-- What one step can do: the engine completes a busy block, the host acts, the block is reset, or nothing happens but
that a turn passes. `u` is the state with the turn taken off. -/
inductive StepEffect (s t : State) : Prop where
  | completes (u : State) (hu : u = { s with turns := s.turns.tail }) (busy : s.busy = true)
      (mover : nextMover s = .engine)
      (h : t = u.complete (outcomeOfWord s.bounds s.cmd s.a s.b s.m))
  | hostActs (u : State) (act : HostAction) (rest : List HostAction) (hu : u = { s with turns := s.turns.tail })
      (mover : nextMover s = .host) (script : s.script = act :: rest) (h : HostEffect act rest u t)
  | resets (u : State) (hu : u = { s with turns := s.turns.tail }) (mover : nextMover s = .reset) (h : t = u.resetRegs)
  | passes (idle : (nextMover s = .engine ∧ s.busy = false) ∨ (nextMover s = .host ∧ s.script = []))
      (h : t = { s with turns := s.turns.tail })

/-- If a step answers a next state, it did one of the four things of `StepEffect`. -/
theorem step_next {s t : State} (h : step s = .next t) : StepEffect s t := by
  cases hm : nextMover s with
  | host =>
    cases hs : s.script with
    | nil =>
      rw [step_passes (.inr ⟨hm, hs⟩)] at h
      cases h
      exact .passes (.inr ⟨hm, hs⟩) rfl
    | cons act rest => rw [step_host hm hs] at h; exact .hostActs _ act rest rfl hm hs (hostAction_next h)
  | engine =>
    cases hb : s.busy with
    | true => rw [step_engine hb hm, engineComplete_eq] at h; cases h; exact .completes _ rfl hb hm rfl
    | false =>
      rw [step_passes (.inl ⟨hm, hb⟩)] at h
      cases h
      exact .passes (.inl ⟨hm, hb⟩) rfl
  | reset => rw [step_reset hm] at h; cases h; exact .resets _ rfl hm rfl

/-- Runs add up. -/
theorem run_add {m n : Nat} {s t : State} (h : run m s = .next t) : run (m + n) s = run n t := by
  induction m generalizing s with
  | zero => simp only [run] at h; cases h; simp
  | succ m ih =>
    rw [Nat.succ_add]
    simp only [run] at h ⊢
    cases hs : step s with
    | next u => rw [hs] at h; exact ih h
    | fault r => rw [hs] at h; cases h
    | refused r => rw [hs] at h; cases h

/-- One step of a core's run that answers a next state. -/
theorem coreRun_next (M : Host.Core) (n : Nat) {s t : M.State} (h : M.step s = .next t) : M.run (n + 1) s = M.run n t := by
  rw [Host.Core.run, h]

/-- A run of the machine that answers a next state is a run of the host's core. -/
theorem coreRun_of_run {n : Nat} {s t : State} (h : run n s = .next t) : Sys2Proof.core.run n s = .next t := by
  induction n generalizing s with
  | zero => exact h
  | succ n ih =>
    simp only [run] at h
    cases hs : step s with
    | next u => rw [hs] at h; exact (coreRun_next Sys2Proof.core n hs).trans (ih h)
    | fault r => rw [hs] at h; cases h
    | refused r => rw [hs] at h; cases h

end Sys2Proof.Machine
end

