-- ==== Sys2Proof/Laws/PerInstr.lean ====
section
/-! SUPPORT. Statements about every command as syntax, one lemma per constructor. -/

namespace Sys2Proof.Laws.WordFields

/-- The command word of `i` has `ZERO` zero and `OPC` the opcode of `i` (30_encoding.md R60, R62). -/
def Statement (i : Instr) : Prop := zeroField (encode i) = 0 ∧ opcField (encode i) = i.opc ∧ i.opc ≠ 0

theorem addmod : Statement .addmod := by unfold Statement; decide

theorem submod : Statement .submod := by unfold Statement; decide

theorem mulmod : Statement .mulmod := by unfold Statement; decide

theorem powmod : Statement .powmod := by unfold Statement; decide

theorem egcd : Statement .egcd := by unfold Statement; decide

theorem modinv : Statement .modinv := by unfold Statement; decide

theorem divmod : Statement .divmod := by unfold Statement; decide

theorem isprime : Statement .isprime := by unfold Statement; decide

theorem isqrt : Statement .isqrt := by unfold Statement; decide

theorem issquare : Statement .issquare := by unfold Statement; decide

end Sys2Proof.Laws.WordFields
end

