-- ==== Sys2Proof/Tests/Slice0.lean ====
section
/-! SUPPORT. The model's own tests (expected values from 95_test_vectors.md and the rules' corner cases), and for each
statement with hypotheses a concrete state that meets them. -/

namespace Sys2Proof.Tests

open Sys2Proof.Machine

/-! ## Helpers -/

/-- The state after reset with `A`, `B`, `M`, `CMD`, `STATUS`, a script and turns put in; `R0`, `R1`, `R2` are 9, 8, 7. -/
def stateWith (a b m cmd status : Word) (script : List HostAction) (turns : List Turn) : State :=
  { State.reset with
    a := a, b := b, m := m, cmd := cmd, status := status, r0 := 9, r1 := 8, r2 := 7, script := script, turns := turns }

/-- The state a step leads to, if it leads to one. -/
def after (s : State) : Option State :=
  match step s with
  | .next t => some t
  | .fault _ => none
  | .refused _ => none

/-- `R0` and `STATUS` after the command word `w` is accepted and completes on operands `a`, `b`, `m`. -/
def result (w a b m : Word) : Option (Word × Word) :=
  (after ((stateWith a b m 0 0 [] []).withFetchWord 64 w.toNat)).map fun t => (t.r0, t.status)

/-- `R0`, `R1`, `R2` and `STATUS` after a command word. -/
def results (w a b m : Word) : Option (Word × Word × Word × Word) :=
  (after ((stateWith a b m 0 0 [] []).withFetchWord 64 w.toNat)).map fun t => (t.r0, t.r1, t.r2, t.status)

/-! ## Well-formedness: an ill-formed term for each check (20_memory.md R42, 30_encoding.md R67) -/

theorem test_wf_refuses_misaligned_write : (HostAction.busWr 4 (List.replicate 8 0)).wf 0 = false := by decide
theorem test_wf_refuses_write_past_the_file : (HostAction.busWr 64 (List.replicate 8 0)).wf 0 = false := by decide
theorem test_wf_refuses_narrow_write : (HostAction.busWr 8 (List.replicate 4 0)).wf 0 = false := by decide
theorem test_wf_refuses_misaligned_read : (HostAction.busRd 9 8).wf 0 = false := by decide
theorem test_wf_refuses_read_past_the_file : (HostAction.busRd 72 8).wf 0 = false := by decide
theorem test_wf_refuses_wide_read : (HostAction.busRd 0 16).wf 0 = false := by decide
theorem test_wf_accepts_last_register : (HostAction.busRd 56 8).wf 0 = true := by decide
theorem test_wf_refuses_address_below_base : (HostAction.busRd 0 8).wf 8 = false := by decide
theorem test_wf_accepts_first_register_at_base : (HostAction.busRd 4096 8).wf 4096 = true := by decide
/-- 20_memory.md R41: a slot in which two bits share a place. -/
theorem test_wf_refuses_shared_place : ¬ BusSlot.wf ⟨.a, Vector.ofFn fun _ => 0⟩ := fun h => by
  have := h 0 1 (by decide)
  exact absurd this (by decide)
/-- 20_memory.md R44: a map that leaves seven registers out. -/
theorem test_wf_refuses_absent_register : ¬ BusMap.wf ⟨0, Vector.ofFn fun _ => littleEndianSlot .a⟩ := fun h => by
  obtain ⟨j, hj⟩ := h.2 .b
  revert j
  decide
/-- 20_memory.md R41: the recommended map loses no bit and no register, at any base. -/
theorem recommendedByteMap_wf (base : Nat) : BusMap.wf ⟨base, recommendedByteMap⟩ := by
  refine ⟨fun j => ?_, fun r => ?_⟩
  · fin_cases j <;> exact littleEndianSlot_wf _
  · cases r
    · exact ⟨0, rfl⟩
    · exact ⟨1, rfl⟩
    · exact ⟨2, rfl⟩
    · exact ⟨3, rfl⟩
    · exact ⟨4, rfl⟩
    · exact ⟨5, rfl⟩
    · exact ⟨6, rfl⟩
    · exact ⟨7, rfl⟩
theorem test_wf_refuses_long_literal : (HostLine.wr .a 18446744073709551616).wf = false := by decide
theorem test_wf_accepts_longest_literal : (HostLine.wr .a 18446744073709551615).wf = true := by decide

/-! ## Decoding: the words written out from 30_encoding.md R60 (`ZERO` 63:4, `OPC` 3:0) and R62 -/

theorem test_decode_addmod : decode (0#60 ++ 0b0001#4) = .command .addmod := by decide
theorem test_decode_submod : decode (0#60 ++ 0b0010#4) = .command .submod := by decide
theorem test_decode_mulmod : decode (0#60 ++ 0b0011#4) = .command .mulmod := by decide
theorem test_decode_powmod : decode (0#60 ++ 0b0100#4) = .command .powmod := by decide
theorem test_decode_egcd : decode (0#60 ++ 0b0101#4) = .command .egcd := by decide
theorem test_decode_modinv : decode (0#60 ++ 0b0110#4) = .command .modinv := by decide
theorem test_decode_divmod : decode (0#60 ++ 0b0111#4) = .command .divmod := by decide
theorem test_decode_isprime : decode (0#60 ++ 0b1000#4) = .command .isprime := by decide
theorem test_decode_isqrt : decode (0#60 ++ 0b1001#4) = .command .isqrt := by decide
theorem test_decode_issquare : decode (0#60 ++ 0b1010#4) = .command .issquare := by decide
theorem test_decode_zero_word : decode 0 = .illegal .unassignedOpcode := by decide
theorem test_decode_eleven : decode 0xB = .illegal .unassignedOpcode := by decide
theorem test_decode_mulmod_with_bit_four : decode 0x13 = .illegal .zeroFieldSet := by decide
theorem test_decode_addmod_with_top_bit : decode 0x8000000000000001 = .illegal .zeroFieldSet := by decide
theorem test_decodeTableWord : decodeTableWord 64 5 = some .egcd := by decide
/-- 30_encoding.md R67: `CMD MULMOD` encodes as (`WR`, 3, 3). -/
theorem test_triple_of_issue : (issue .mulmod).triple = some ⟨true, 3, some 3⟩ := by decide
/-- 30_encoding.md R68: the expansion of `modInverse 3, 7`. -/
theorem test_expand_modInverse :
    (Call.modInverse 3 7).expand = [.wr .a 3, .wr .m 7, .wr .cmd 6, .wait, .rd .r0] := by decide

/-! ## One step of each command (95_test_vectors.md sections 1 and 2) -/

/-- S1: the sum overflows 64 bits. -/
theorem test_addmod_overflow :
    result 1 0xFFFFFFFFFFFFF000 0xFFFFFFFFFFFFFF00 0xFFFFFFFFFFFFFFC5 = some (0xFFFFFFFFFFFFEF3B, 2) := by decide
/-- V-ADD-17. -/
theorem test_addmod_zero_modulus : result 1 3 4 0 = some (9, 6) := by decide
/-- S2. -/
theorem test_submod_borrow : result 2 5 0xFFFFFFFFFFFFFF00 0x8000 = some (261, 2) := by decide
/-- V-SUB-5: a multiple of `m` gives 0, never `m`. -/
theorem test_submod_multiple : result 2 5 12 7 = some (0, 2) := by decide
/-- V-MUL-13. -/
theorem test_mulmod_wide :
    result 3 0x123456789ABCDEF0 0x0FEDCBA987654321 0xFFFFFFFFFFFFFFC5 = some (0x650B76B7E0002926, 2) := by decide
/-- V-MUL-15. -/
theorem test_mulmod_zero_modulus_first : result 3 0 0 0 = some (9, 6) := by decide
/-- V-POW-27. -/
theorem test_powmod_reduced_exponent :
    result 4 3 0xFFFFFFFFFFFFFFFF 0xFFFFFFFFFFFFFFC5 = some (0x4FE18475207A62AD, 2) := by decide
/-- V-POW-24: the parity of the reduced exponent. -/
theorem test_powmod_minus_one : result 4 6 8 7 = some (6, 2) := by decide
/-- V-EGCD-9. -/
theorem test_egcd_coefficients : results 5 240 46 1000 = some (2, 991, 47, 2) := by decide
/-- V-EGCD-4: the base case with `m = 0`. -/
theorem test_egcd_base_zero_modulus : results 5 0 9 0 = some (9, 0, 1, 2) := by decide
/-- V-INV-22. -/
theorem test_modinv_composite : result 6 240 5 1001 = some (830, 2) := by decide
/-- V-INV-7. -/
theorem test_modinv_multiple : result 6 14 5 7 = some (9, 10) := by decide
/-- V-DIV-14. -/
theorem test_divmod_composite : result 7 10 5 6 = some (2, 2) := by decide
/-- V-DIV-6: `b = m` is NoInverse, not DivideByZero. -/
theorem test_divmod_divisor_is_modulus : result 7 5 7 7 = some (9, 10) := by decide
/-- V-PR-28: the comparison with the bound is strict. -/
theorem test_isprime_strict_bound : result 8 1373653 5 6 = some (0, 2) := by decide
/-- V-PR-10: the unsquared power is compared with `n − 1`. -/
theorem test_isprime_43 : result 8 43 5 6 = some (1, 2) := by decide
/-- V-SQ-26. -/
theorem test_isqrt_below_square : result 9 0xFFFFFFFE00000000 5 6 = some (0xFFFFFFFE, 2) := by decide
/-- V-SQ-4. -/
theorem test_isqrt_three : result 9 3 5 6 = some (1, 2) := by decide
/-- V-SQ-27. -/
theorem test_issquare_largest : result 10 0xFFFFFFFE00000001 5 6 = some (1, 2) := by decide
/-- V-SQ-8. -/
theorem test_issquare_not : result 10 8 5 6 = some (0, 2) := by decide

/-! ## One step of the interface (95_test_vectors.md section 2.9) -/

/-- V-IF-3. -/
theorem test_accept_clears_done_and_err :
    (after (stateWith 0 0 0 0 0x0A [.wr .cmd 1] [.host])).map (fun t => (t.cmd, t.status)) = some (1, 0x01) := by decide
/-- V-IF-5. -/
theorem test_busy_write_dropped :
    (after (stateWith 0 0 0 8 0x01 [.wr .cmd 9] [.host])).map (fun t => (t.cmd, t.status)) = some (8, 0x11) := by decide
/-- V-IF-6. -/
theorem test_clear_overrun_while_busy :
    (after (stateWith 0 0 0 8 0x11 [.wr .status 0x10] [.host])).map (fun t => t.status) = some 0x01 := by decide
/-- V-IF-7. -/
theorem test_status_write_without_bit_four :
    (after (stateWith 0 0 0 8 0x12 [.wr .status 0xFFFFFFFFFFFFFFEF] [.host])).map (fun t => t.status) = some 0x12 := by
  decide
/-- V-IF-9. -/
theorem test_read_old_result_while_busy :
    (after (stateWith 0 0 0 8 0x01 [.rd .r0] [.host])).map (fun t => t.replies) = some [.port .r0 9] := by decide
/-- V-IF-12. -/
theorem test_bit_four_is_illegal :
    (after (stateWith 2 3 5 0x13 0x01 [] [.engine])).map (fun t => (t.r0, t.status)) = some (9, 0x0E) := by decide
/-- V-IF-15. -/
theorem test_reset_while_busy :
    (after (stateWith 2 3 5 3 0x11 [] [.reset])).map (fun t => (t.a, t.status)) = some (0, 0) := by decide
/-- 20_memory.md R41: bits 7:0 at the lowest address under the recommended map. -/
theorem test_bus_write_little_endian :
    (after (stateWith 0 0 0 0 0 [.busWr 8 [0xF0, 0xDE, 0xBC, 0x9A, 0x78, 0x56, 0x34, 0x12]] [])).map (fun t => t.b) =
      some 0x123456789ABCDEF0 := by decide +kernel
/-- A big-endian platform at base 4096: bits 63:56 at the lowest address, `M` at the slot of `A`. -/
def bigEndianBus : BusMap :=
  ⟨4096, recommendedByteMap.set 0 ⟨.m, Vector.ofFn fun k : Fin 64 => ⟨8 * (7 - k.val / 8) + k.val % 8, by omega⟩⟩⟩
/-- 20_memory.md R41: the mapping of register bits to byte addresses is the platform's. -/
theorem test_bus_write_big_endian :
    (after { stateWith 0 0 0 0 0 [.busWr 4096 [0x12, 0x34, 0x56, 0x78, 0x9A, 0xBC, 0xDE, 0xF0]] [] with
      bus := bigEndianBus }).map (fun t => t.m) = some 0x123456789ABCDEF0 := by decide +kernel
theorem test_bus_read_big_endian :
    (after { stateWith 0 0 0x123456789ABCDEF0 0 0 [.busRd 4096 8] [] with bus := bigEndianBus }).map
      (fun t => t.replies) = some [.bus 4096 [0x12, 0x34, 0x56, 0x78, 0x9A, 0xBC, 0xDE, 0xF0]] := by decide +kernel
/-- 20_memory.md R42: any other width is refused. -/
theorem test_narrow_bus_read_refused :
    (match step (stateWith 0 0 0 0 0 [.busRd 8 4] []) with | .refused r => some r | _ => none) =
      some .partialBusAccess := by decide

/-! ## Witnesses: a concrete state for the hypotheses of each statement -/

theorem witness_StepRunsDecodedCommand :
    (stateWith 36 91 11 3 1 [] [.engine]).busy = true ∧ nextMover (stateWith 36 91 11 3 1 [] [.engine]) = .engine ∧
    decode (stateWith 36 91 11 3 1 [] [.engine]).cmd = .command .mulmod := by decide

theorem witness_IdleWriteLoadsOperand :
    ∀ act ∈ [HostAction.wr .a 5, .wr .b 6, .wr .m 7], nextMover (stateWith 0 0 0 0 2 [act] []) = .host ∧
      (stateWith 0 0 0 0 2 [act] []).busy = false ∧ (stateWith 0 0 0 0 2 [act] []).script = act :: [] := by decide

theorem witness_IdleCommandWriteIsAccepted :
    nextMover (stateWith 1 2 3 0 0x0A [.wr .cmd 0xFFFFFFFFFFFFFFFF] []) = .host ∧
    (stateWith 1 2 3 0 0x0A [.wr .cmd 0xFFFFFFFFFFFFFFFF] []).busy = false := by decide

theorem witness_BusyWriteIsDroppedAndMarked :
    ∀ r ∈ [Reg.a, .b, .m, .cmd], nextMover (stateWith 1 2 3 8 1 [.wr r 4] [.host]) = .host ∧
      (stateWith 1 2 3 8 1 [.wr r 4] [.host]).busy = true ∧ (r = .a ∨ r = .b ∨ r = .m ∨ r = .cmd) := by decide

theorem witness_CompleteReportsTheOutcome :
    ((stateWith 7 0 2 7 1 [] []).busy = true ∧ nextMover (stateWith 7 0 2 7 1 [] []) = .engine) ∧
    ((stateWith 7 0 2 7 2 [.wr .b 1] []).busy = false ∧
      (after (stateWith 7 0 2 7 2 [.wr .b 1] [])).map (fun t => t.done) = some true) := by decide

theorem witness_HostReadReturnsTheRegister :
    ∀ r ∈ [Reg.a, .b, .m, .cmd, .status, .r0, .r1, .r2],
      nextMover (stateWith 1 2 3 4 0x12 [.rd r] []) = .host ∧
      (stateWith 1 2 3 4 0x12 [.rd r] []).script = .rd r :: [] := by decide

theorem witness_StatusAndResultWrites :
    ∀ r ∈ [Reg.status, .r0, .r1, .r2], nextMover (stateWith 1 2 3 4 0x11 [.wr r 0x10] [.host]) = .host ∧
      (stateWith 1 2 3 4 0x11 [.wr r 0x10] [.host]).script = .wr r 0x10 :: [] := by decide

theorem witness_IllegalCommandCompletesWithErrThree :
    ∀ v ∈ [(0 : Word), 11, 15, 16, 0xFFFFFFFFFFFFFFFF],
      (stateWith 1 2 3 0 2 [.wr .cmd v] [.host, .engine]).busy = false ∧
      (stateWith 1 2 3 0 2 [.wr .cmd v] [.host, .engine]).turns = .host :: .engine :: [] ∧
      (v.toNat = 0 ∨ 11 ≤ v.toNat) := by
  intro v hv
  refine ⟨show statusBusy 2 = false by decide, rfl, ?_⟩
  simp only [List.mem_cons, List.not_mem_nil, or_false] at hv
  rcases hv with rfl | rfl | rfl | rfl | rfl <;> decide

theorem witness_ResetZeroesEveryRegister : nextMover (stateWith 1 2 3 4 1 [.rd .a] [.reset, .host]) = .reset := by
  decide

/-- A busy block and an idle one. -/
theorem witness_WaitEndsExactlyWhenIdle :
    (nextMover (stateWith 1 2 3 4 1 [.wait, .rd .r0] [.host]) = .host ∧
      (stateWith 1 2 3 4 1 [.wait, .rd .r0] [.host]).busy = true) ∧
    (nextMover (stateWith 1 2 3 4 2 [.wait, .rd .r0] [.host]) = .host ∧
      (stateWith 1 2 3 4 2 [.wait, .rd .r0] [.host]).busy = false) := by decide

/-- The first and the last slot, a write and a read, and a well-formed slot. -/
theorem witness_WholeRegisterBusAccess :
    (∀ j ∈ [(0 : Fin 8), 7],
      (nextMover (stateWith 0 0 0 0 0 [.busWr (State.reset.bus.base + 8 * j.val) (List.replicate 8 5)] []) = .host ∧
        (List.replicate 8 (5 : Byte)).length = 8 ∧
        (stateWith 0 0 0 0 0 [.busWr (State.reset.bus.base + 8 * j.val) (List.replicate 8 5)] []).script =
          .busWr (State.reset.bus.base + 8 * j.val) (List.replicate 8 5) :: []) ∧
      (nextMover (stateWith 0 0 0 0 0 [.busRd (State.reset.bus.base + 8 * j.val) 8] []) = .host ∧
        (stateWith 0 0 0 0 0 [.busRd (State.reset.bus.base + 8 * j.val) 8] []).script =
          .busRd (State.reset.bus.base + 8 * j.val) 8 :: [])) ∧
    ∀ j : Fin 8, State.reset.bus.slots[j].wf :=
  ⟨by decide, (recommendedByteMap_wf 0).1⟩

theorem witness_RecommendedByteMapIsLittleEndian :
    ∀ r ∈ [Reg.a, .r2],
      (nextMover (stateWith 0 0 0 0 0 [.busWr (8 * r.index.toNat) (wordBytes 5)] []) = .host ∧
        (stateWith 0 0 0 0 0 [.busWr (8 * r.index.toNat) (wordBytes 5)] []).script =
          .busWr (0 + 8 * r.index.toNat) (wordBytes 5) :: []) ∧
      (nextMover (stateWith 0 0 0 0 0 [.busRd (8 * r.index.toNat) 8] []) = .host ∧
        (stateWith 0 0 0 0 0 [.busRd (8 * r.index.toNat) 8] []).script = .busRd (0 + 8 * r.index.toNat) 8 :: []) ∧
      State.reset.bus.base = 0 ∧ State.reset.bus.slots = recommendedByteMap := by
  intro r hr
  simp only [List.mem_cons, List.not_mem_nil, or_false] at hr
  rcases hr with rfl | rfl <;> exact ⟨by decide, by decide, rfl, rfl⟩

theorem witness_ByteMapMattersToBusAccessesOnly :
    (after (stateWith 1 2 3 0 0 [.wr .cmd 3, .busRd 0 8] [])).isSome = true ∧
    ∀ act ∈ (stateWith 1 2 3 0 0 [.wr .cmd 3, .busRd 0 8] []).script.head?, onBus act = false := by decide

theorem witness_StepStopsOnlyOnPartialBusAccess :
    nextMover (stateWith 0 0 0 0 0 [.busRd 1 8] []) = .host ∧
    (HostAction.busRd 1 8).wf (stateWith 0 0 0 0 0 [.busRd 1 8] []).bus.base = false := by decide

/-- A busy state that meets the invariant and takes a step. -/
theorem witness_StepKeepsStatusInvariant :
    Inv (stateWith 36 91 11 3 1 [] [.engine]) ∧ (after (stateWith 36 91 11 3 1 [] [.engine])).isSome = true := by
  refine ⟨⟨by decide, by decide, by decide, by decide, ?_, ?_⟩, by decide⟩
  · intro i h; exact absurd h (by decide)
  · intro i h; exact absurd h (by decide)

/-- The four kinds of step the whole-machine rules speak of: an accept, a write while busy, a completion, a reset. -/
theorem witness_whole_machine_rules :
    (nextMover (stateWith 1 2 3 0 0 [.wr .cmd 3] []) = .host ∧
      nextWrite (stateWith 1 2 3 0 0 [.wr .cmd 3] []) = some (.cmd, 3) ∧
      (after (stateWith 1 2 3 0 0 [.wr .cmd 3] [])).isSome = true) ∧
    (breaksProtocol (stateWith 1 2 3 5 1 [.wr .a 4] [.host]) = true ∧
      (after (stateWith 1 2 3 5 1 [.wr .a 4] [.host])).isSome = true) ∧
    (nextMover (stateWith 1 2 3 5 1 [] []) = .engine ∧
      (after (stateWith 1 2 3 5 1 [] [])).map (fun t => t.r1 == 8) = some false) ∧
    (nextMover (stateWith 1 2 3 5 1 [] [.reset]) = .reset ∧
      (after (stateWith 1 2 3 5 1 [] [.reset])).isSome = true) := by decide

theorem witness_BusyBlockCompletes :
    (stateWith 43 0 0 8 1 [.wr .a 1, .rd .status] [.host, .host]).busy = true ∧
    ∀ act ∈ (stateWith 43 0 0 8 1 [.wr .a 1, .rd .status] [.host, .host]).script, act.wf State.reset.bus.base = true := by decide

theorem witness_OutcomeFixedAtAccept :
    (stateWith 6 3 7 0 2 [.wr .cmd 7, .rd .r0, .wr .a 1] [.host, .host, .host, .engine]).busy = false ∧
    (∀ act ∈ [HostAction.rd .r0, .wr .a 1], act.wf State.reset.bus.base = true) ∧
    (stateWith 6 3 7 0 2 [.wr .cmd 7, .rd .r0, .wr .a 1] [.host, .host, .host, .engine]).turns =
      List.replicate (2 + 1) .host ++ .engine :: [] := by decide

theorem witness_CallReturnsItsOutcome :
    (stateWith 0 0 0 0 0x0A (Call.mulMod 36 91 11).expand [.host, .engine, .host, .host, .host, .host]).busy = false ∧
    (stateWith 0 0 0 0 0x0A (Call.mulMod 36 91 11).expand [.host, .engine, .host, .host, .host, .host]).script =
      (Call.mulMod 36 91 11).expand ++ [] ∧
    .reset ∉ (stateWith 0 0 0 0 0x0A (Call.mulMod 36 91 11).expand
      [.host, .engine, .host, .host, .host, .host]).turns := by decide

theorem witness_OutcomeDependsOnlyOnReads :
    (∀ r ∈ readsOf .modinv,
      (stateWith 3 1 7 6 1 [] []).readReg r = (stateWith 3 2 7 6 0x11 [] []).readReg r) ∧
    (∀ r ∈ readsOf .isprime,
      (stateWith 43 1 7 8 1 [] []).readReg r = (stateWith 43 2 9 8 0x11 [] []).readReg r) ∧
    (stateWith 43 1 7 8 1 [] []).bounds = (stateWith 43 2 9 8 0x11 [] []).bounds := by decide

theorem witness_ErrorWritesStatusOnly :
    (match exec .divmod (stateWith 5 7 7 7 1 [] []) with | .next t => t.err | _ => 0) ≠ 0 := by decide

/-- `M = 1`, `M = 2` and the largest modulus, for the results with `M ≥ 1` or `M ≥ 2`. -/
theorem witness_results_with_a_modulus :
    1 ≤ (stateWith 5 7 1 0 1 [] []).m.toNat ∧ (stateWith 5 7 1 0 1 [] []).m.toNat = 1 ∧
    2 ≤ (stateWith 5 1 2 0 1 [] []).m.toNat ∧
    (stateWith 5 1 2 0 1 [] []).b.toNat < (stateWith 5 1 2 0 1 [] []).m.toNat ∧
    2 ≤ (stateWith 5 7 0xFFFFFFFFFFFFFFFF 0 1 [] []).m.toNat := by decide

theorem witness_EgcdResult :
    (1 ≤ (stateWith 6 4 7 5 1 [] []).m.toNat ∧ (stateWith 6 4 7 5 1 [] []).a ≠ 0) ∧
    (1 ≤ (stateWith 0 9 1 5 1 [] []).m.toNat ∧ (stateWith 0 9 1 5 1 [] []).a = 0) := by decide

theorem witness_EgcdRecursion : (6 : Nat) ≠ 0 ∧ (7 : Nat) ≠ 0 := by decide

theorem witness_EgcdZeroModulus :
    ((stateWith 0 9 0 5 1 [] []).m = 0 ∧ (stateWith 0 9 0 5 1 [] []).a = 0) ∧
    ((stateWith 3 9 0 5 1 [] []).m = 0 ∧ (stateWith 3 9 0 5 1 [] []).a ≠ 0) := by decide

theorem prime_seven : prime 7 := ⟨by decide, by intro k h1 h2; interval_cases k <;> decide⟩

theorem prime_fortyThree : prime 43 := ⟨by decide, by intro k h1 h2; interval_cases k <;> decide⟩

theorem witness_ModinvResult :
    2 ≤ (stateWith 3 0 7 6 1 [] []).m.toNat ∧
    Nat.gcd (stateWith 3 0 7 6 1 [] []).a.toNat (stateWith 3 0 7 6 1 [] []).m.toNat = 1 ∧
    prime (stateWith 3 0 7 6 1 [] []).m.toNat := ⟨by decide, by decide, prime_seven⟩

theorem witness_ModinvErrorsAndModulusOne :
    (stateWith 3 0 0 6 1 [] []).m = 0 ∧
    (1 ≤ (stateWith 14 0 7 6 1 [] []).m.toNat ∧
      Nat.gcd (stateWith 14 0 7 6 1 [] []).a.toNat (stateWith 14 0 7 6 1 [] []).m.toNat ≠ 1) ∧
    (stateWith 5 0 1 6 1 [] []).m.toNat = 1 := by decide

theorem witness_DivmodResult :
    2 ≤ (stateWith 6 3 7 7 1 [] []).m.toNat ∧ (stateWith 6 3 7 7 1 [] []).b ≠ 0 ∧
    Nat.gcd (stateWith 6 3 7 7 1 [] []).b.toNat (stateWith 6 3 7 7 1 [] []).m.toNat = 1 := by decide

/-- A zero divisor, a divisor without an inverse, and an invertible one. -/
theorem witness_DivmodIsMulmodByModinv :
    (1 ≤ (stateWith 5 0 1 7 1 [] []).m.toNat ∧ (stateWith 5 0 1 7 1 [] []).b = 0) ∧
    ((stateWith 5 7 7 7 1 [] []).b ≠ 0 ∧
      (match exec .modinv { stateWith 5 7 7 7 1 [] [] with a := 7 } with | .next u => u.err | _ => 0) ≠ 0) ∧
    ((stateWith 5 3 7 7 1 [] []).b ≠ 0 ∧
      (match exec .modinv { stateWith 5 3 7 7 1 [] [] with a := 3 } with | .next u => u.err | _ => 1) = 0) := by decide

/-- At a prime the soundness constraint holds whatever the bounds. -/
theorem witness_IsprimeDecidesPrimality : SoundAt (stateWith 43 0 0 8 1 [] []).bounds
    (stateWith 43 0 0 8 1 [] []).a.toNat := fun _ _ _ _ _ => prime_fortyThree

/-- An even operand does not reach the witnesses, so the constraint asks nothing of it. -/
theorem witness_IsprimeDecidesPrimality_composite : SoundAt (stateWith 2048 0 0 8 1 [] []).bounds
    (stateWith 2048 0 0 8 1 [] []).a.toNat := by
  intro i _ h
  exact absurd h.2.1 (by decide)

theorem witness_IsprimeAcceptsEveryPrime : prime (stateWith 43 0 0 8 1 [] []).a.toNat := prime_fortyThree

theorem witness_IsprimeSmallCases :
    (stateWith 1 0 0 8 1 [] []).a.toNat < 2 ∧
    ((stateWith 3 0 0 8 1 [] []).a.toNat = 2 ∨ (stateWith 3 0 0 8 1 [] []).a.toNat = 3) ∧
    (2 < (stateWith 4 0 0 8 1 [] []).a.toNat ∧ (stateWith 4 0 0 8 1 [] []).a.toNat % 2 = 0) ∧
    (5 ≤ (stateWith 41 0 0 8 1 [] []).a.toNat ∧ (stateWith 41 0 0 8 1 [] []).a.toNat % 2 = 1 ∧
      41 ∣ (stateWith 41 0 0 8 1 [] []).a.toNat) ∧
    (5 ≤ (stateWith 1681 0 0 8 1 [] []).a.toNat ∧ (stateWith 1681 0 0 8 1 [] []).a.toNat % 2 = 1 ∧
      41 ∣ (stateWith 1681 0 0 8 1 [] []).a.toNat) ∧ 41 ∈ witnessPrimes := by decide

theorem witness_IsprimeWitnessLoop : ReachesWitnesses (stateWith 43 0 0 8 1 [] []).a.toNat :=
  ⟨by decide, by decide, by decide⟩

theorem witness_OddPartDecomposes :
    (5 ≤ 5 ∧ 5 ≤ maxU64 ∧ 5 % 2 = 1) ∧ (5 ≤ maxU64 ∧ maxU64 ≤ maxU64 ∧ maxU64 % 2 = 1) := by decide

theorem witness_WitnessEvaluationIsSPRP : 1849 ≤ maxU64 ∧ ReachesWitnesses 1849 ∧ 2 ∈ witnessPrimes :=
  ⟨by decide, ⟨by decide, by decide, by decide⟩, by decide⟩

theorem witness_IsqrtResult :
    0xFFFFFFFE00000001 ≤ (stateWith 0xFFFFFFFE00000001 0 0 9 1 [] []).a.toNat := by decide

theorem witness_ResultsLieBelowTheModulus :
    (1 ≤ (stateWith 5 7 1 0 1 [] []).m.toNat) ∧ (2 ≤ (stateWith 5 7 2 0 1 [] []).m.toNat) := by decide

/-- The overflow branch, at its first sum. -/
theorem witness_OverflowSafeAddEqualsAddmod :
    1 ≤ (1 : Word).toNat ∧ maxU64 - (1 : Word).toNat < (0xFFFFFFFFFFFFFFFF : Word).toNat := by decide

/-- The least modulus, and the largest one, whose doublings overflow 64 bits. -/
theorem witness_DoublingMultiplyEqualsMulmod :
    1 ≤ (1 : Word).toNat ∧ 1 ≤ (0xFFFFFFFFFFFFFFFF : Word).toNat := by decide

theorem witness_BranchingSubtractEqualsSubmod :
    1 ≤ (1 : Word).toNat ∧ 1 ≤ (0xFFFFFFFFFFFFFFFF : Word).toNat := by decide

theorem witness_SquareAndMultiplyIsExact : 18446744073709551615 ≤ maxU64 ∧ 2 ≤ 2 := by decide

end Sys2Proof.Tests
end

namespace Sys2Proof.Machine

/-! SUPPORT and the statements of 10_state.md: what a host write, an outcome and a step do to the registers, said once
each; then the invariant; then the statements, each assembled from these. -/

/-! ## What the register file alone decides -/

theorem busy_of_toRegs {s t : State} (h : t.toRegs = s.toRegs) : t.busy = s.busy := by
  simp [State.busy, h]

theorem done_of_toRegs {s t : State} (h : t.toRegs = s.toRegs) : t.done = s.done := by
  simp [State.done, h]

theorem err_of_toRegs {s t : State} (h : t.toRegs = s.toRegs) : t.err = s.err := by
  simp [State.err, h]

theorem ovr_of_toRegs {s t : State} (h : t.toRegs = s.toRegs) : t.ovr = s.ovr := by
  simp [State.ovr, h]

theorem readReg_of_toRegs {s t : State} (h : t.toRegs = s.toRegs) (r : Reg) : t.readReg r = s.readReg r := by
  cases r <;> simp [State.readReg, h]

theorem sameResults_of_toRegs {s t : State} (h : t.toRegs = s.toRegs) : SameResults s t := by
  simp [SameResults, h]

/-! ## A host write, field by field -/

/-- A host write of a guarded register while busy is dropped (10_state.md R32). -/
theorem State.hostWrite_dropped {s : State} {r : Reg} (v : Word) (hb : s.busy = true) (hg : guarded r = true) :
    s.hostWrite r v = s.dropWrite := by
  rw [s.hostWrite_busy r v hb]
  cases r with
  | a | b | m | cmd => rfl
  | status | r0 | r1 | r2 => cases hg

/-- A host write accepts a command, or it keeps `CMD` and every field of `STATUS` but `OVR` (10_state.md R30, R31, R32,
R35). -/
theorem State.hostWrite_accepts_or_keeps (s : State) (r : Reg) (v : Word) :
    (r = .cmd ∧ s.busy = false ∧ s.hostWrite r v = s.accept v) ∨
    (¬ (r = .cmd ∧ s.busy = false) ∧ (s.hostWrite r v).busy = s.busy ∧ (s.hostWrite r v).done = s.done ∧
      (s.hostWrite r v).err = s.err ∧ (s.hostWrite r v).cmd = s.cmd) := by
  cases hb : s.busy with
  | true =>
    refine .inr ⟨by simp, ?_⟩
    rw [s.hostWrite_busy r v hb, ← hb]
    cases r <;> simp [State.busy, State.done, State.err]
  | false =>
    rw [s.hostWrite_idle r v hb, ← hb]
    cases r with
    | cmd => exact .inl ⟨rfl, rfl, rfl⟩
    | a | b | m | r0 | r1 | r2 => exact .inr ⟨by simp, rfl, rfl, rfl, rfl⟩
    | status => right; simp [State.busy, State.done, State.err]

@[simp] theorem State.hostWrite_reserved (s : State) (r : Reg) (v : Word) :
    statusReserved (s.hostWrite r v).status = statusReserved s.status := by
  cases hb : s.busy with
  | true => rw [s.hostWrite_busy r v hb]; cases r <;> simp
  | false => rw [s.hostWrite_idle r v hb]; cases r <;> simp

/-- A host write raises `BUSY` when it writes `CMD`, and none lowers it (10_state.md R18). -/
theorem State.busy_hostWrite (s : State) (r : Reg) (v : Word) :
    (s.hostWrite r v).busy = true ↔ s.busy = true ∨ r = .cmd := by
  rcases s.hostWrite_accepts_or_keeps r v with ⟨hr, _, h⟩ | ⟨hn, hbusy, _⟩
  · rw [h]; simp [hr]
  · rw [hbusy]; exact ⟨.inl, fun h => h.elim id fun hr => by simpa [hr] using hn⟩

/-- No host write raises `DONE`. -/
theorem State.done_of_done_hostWrite {s : State} {r : Reg} {v : Word} (hd : (s.hostWrite r v).done = true) :
    s.done = true := by
  rcases s.hostWrite_accepts_or_keeps r v with ⟨_, _, h⟩ | ⟨_, _, hdone, _⟩
  · simp [h] at hd
  · rwa [hdone] at hd

/-- `OVR` after a host write (10_state.md R32, R35). -/
theorem State.ovr_hostWrite (s : State) (r : Reg) (v : Word) :
    (s.hostWrite r v).ovr =
      if s.busy && guarded r then true else if r = .status then s.ovr && !v.getLsbD 4 else s.ovr := by
  cases hb : s.busy with
  | true => rw [s.hostWrite_busy r v hb]; cases r <;> simp [guarded, State.ovr]
  | false => rw [s.hostWrite_idle r v hb]; cases r <;> simp [State.ovr]

/-- A guarded register after a host write (10_state.md R30, R31, R32, R35). -/
theorem State.readReg_hostWrite (s : State) (r : Reg) (v : Word) {r' : Reg} (hg : guarded r' = true) :
    (s.hostWrite r v).readReg r' = if r = r' ∧ s.busy = false then v else s.readReg r' := by
  cases hb : s.busy with
  | true =>
    rw [s.hostWrite_busy r v hb]
    cases r' with
    | a | b | m | cmd => cases r <;> simp [State.readReg]
    | status | r0 | r1 | r2 => cases hg
  | false =>
    rw [s.hostWrite_idle r v hb]
    cases r' with
    | a | b | m | cmd => cases r <;> simp [State.readReg]
    | status | r0 | r1 | r2 => cases hg

/-! ## Outcomes and completions -/

theorem errCode_ne_zero (k : ErrKind) : errCode k ≠ 0 := by cases k <;> decide

/-- A completion reports its outcome (10_state.md R33). -/
theorem reports_complete (o : CmdOutcome) (s : State) : Reports o s (s.complete o) := by
  cases o <;> simp [Reports, SameResults]

/-- A completion leaves every guarded register (10_state.md R33). -/
theorem readReg_complete (o : CmdOutcome) (s : State) {r : Reg} (hg : guarded r = true) :
    (s.complete o).readReg r = s.readReg r := by
  cases r with
  | a | b | m | cmd => simp [State.readReg]
  | status | r0 | r1 | r2 => cases hg

/-- `ERR` after a completion depends on the outcome alone. -/
theorem complete_err_congr (o : CmdOutcome) (s u : State) : (s.complete o).err = (u.complete o).err := by
  cases o <;> simp

/-- A completion that changes a result has an `Ok` outcome (10_state.md R12). -/
theorem complete_err_eq_zero_of_results_change {o : CmdOutcome} {s : State}
    (h : ¬ SameResults s (s.complete o)) : (s.complete o).err = 0 := by
  cases o with
  | ok1 v0 => simp
  | ok3 v0 v1 v2 => simp
  | err k => simp [SameResults] at h

/-- Only an outcome of three values reaches `R1` and `R2`. -/
theorem complete_keeps_r1_r2 (o : CmdOutcome) (s : State) (h : ∀ v0 v1 v2, o ≠ .ok3 v0 v1 v2) :
    (s.complete o).r1 = s.r1 ∧ (s.complete o).r2 = s.r2 := by
  cases o with
  | ok1 v0 => simp
  | ok3 v0 v1 v2 => exact absurd rfl (h v0 v1 v2)
  | err k => simp

/-- A command with an outcome of one value writes `R0` alone (10_state.md R13). -/
theorem writesOf_of_ok1 {bounds : OpenBounds} {i : Instr} {a b m v0 : Word}
    (h : outcomeOf bounds i a b m = .ok1 v0) : writesOf i = [.r0] := by
  cases i with
  | egcd => simp only [outcomeOf, egcdOutcome] at h; split at h <;> cases h
  | addmod | submod | mulmod | powmod | modinv | divmod | isprime | isqrt | issquare => rfl

/-- Only EGCD has an outcome of three values (10_state.md R13). -/
theorem egcd_of_ok3 {bounds : OpenBounds} {i : Instr} {a b m v0 v1 v2 : Word}
    (h : outcomeOf bounds i a b m = .ok3 v0 v1 v2) : i = .egcd := by
  cases i with
  | egcd => rfl
  | isprime | isqrt | issquare => cases h
  | addmod | submod | mulmod | powmod =>
    simp only [outcomeOf, addmodOutcome, submodOutcome, mulmodOutcome, powmodOutcome] at h
    split at h <;> cases h
  | modinv =>
    simp only [outcomeOf, modinvOutcome] at h
    split at h
    · cases h
    · split at h <;> cases h
  | divmod =>
    simp only [outcomeOf, divmodOutcome] at h
    split at h
    · cases h
    · split at h
      · cases h
      · split at h <;> cases h

/-- Only a word that decodes to EGCD has an outcome of three values. -/
theorem decode_egcd_of_ok3 {bounds : OpenBounds} {c a b m v0 v1 v2 : Word}
    (h : outcomeOfWord bounds c a b m = .ok3 v0 v1 v2) : decode c = .command .egcd := by
  unfold outcomeOfWord at h
  split at h
  next i hi => rw [hi, egcd_of_ok3 h]
  next why hi => cases h

/-- The outcome of a command on two states that agree on the registers it reads, and for ISPRIME on the witness bounds
(10_state.md R13, R14). -/
theorem outcomeOf_congr_reads {i : Instr} {s u : State} (hr : ∀ r ∈ readsOf i, s.readReg r = u.readReg r)
    (hbounds : i = .isprime → s.bounds = u.bounds) :
    outcomeOf s.bounds i s.a s.b s.m = outcomeOf u.bounds i u.a u.b u.m := by
  cases i with
  | addmod | submod | mulmod | powmod | egcd | divmod =>
    have ha : s.a = u.a := hr .a (by decide)
    have hb : s.b = u.b := hr .b (by decide)
    have hm : s.m = u.m := hr .m (by decide)
    simp only [outcomeOf, ha, hb, hm]
  | modinv =>
    have ha : s.a = u.a := hr .a (by decide)
    have hm : s.m = u.m := hr .m (by decide)
    simp only [outcomeOf, ha, hm]
  | isprime | isqrt | issquare =>
    have ha : s.a = u.a := hr .a (by decide)
    simp only [outcomeOf, ha, hbounds]

/-! ## What one step does to the registers -/

/-- A host action is a register write, or it keeps every register. -/
theorem HostEffect.writes_or_keeps {act : HostAction} {rest : List HostAction} {s t : State}
    (h : HostEffect act rest s t) :
    (∃ r v, portWriteOf s.bus act = some (r, v) ∧ t = State.hostWrite { s with script := rest } r v) ∨
    (portWriteOf s.bus act = none ∧ t.toRegs = s.toRegs) := by
  cases h with
  | write r v hw h => exact .inl ⟨r, v, hw, h⟩
  | read r hw h => exact .inr ⟨hw, by rw [h]; rfl⟩
  | busRead slot address hw h => exact .inr ⟨hw, by rw [h]; rfl⟩
  | poll hw h =>
    refine .inr ⟨by rw [hw]; rfl, ?_⟩
    rw [h, waitPoll]
    split <;> rfl

/-- What a host write makes of the registers depends on the registers alone. -/
theorem State.hostWrite_toRegs_congr {s t : State} (h : t.toRegs = s.toRegs) (r : Reg) (v : Word) :
    (t.hostWrite r v).toRegs = (s.hostWrite r v).toRegs := by
  have ht := busy_of_toRegs h
  cases hb : s.busy with
  | true =>
    rw [s.hostWrite_busy r v hb, t.hostWrite_busy r v (ht.trans hb)]
    cases r <;> simp [State.dropWrite, h]
  | false =>
    rw [s.hostWrite_idle r v hb, t.hostWrite_idle r v (ht.trans hb)]
    cases r <;> simp [State.accept, h]

/-- What one step does to the registers: a completion, a host write, a reset, or nothing. -/
inductive RegEffect (s t : State) : Prop where
  | completes (busy : s.busy = true) (mover : nextMover s = .engine) (noWrite : nextWrite s = none)
      (h : t.toRegs = (s.complete (outcomeOfWord s.bounds s.cmd s.a s.b s.m)).toRegs)
  | writes (r : Reg) (v : Word) (mover : nextMover s = .host) (write : nextWrite s = some (r, v))
      (h : t.toRegs = (s.hostWrite r v).toRegs)
  | resets (mover : nextMover s = .reset) (h : t.toRegs = s.resetRegs.toRegs)
  | keeps (mover : nextMover s = .host ∨ (nextMover s = .engine ∧ s.busy = false)) (noWrite : nextWrite s = none)
      (h : t.toRegs = s.toRegs)

/-- If a step answers a next state, its effect on the registers is one of the four of `RegEffect`. -/
theorem step_regEffect {s t : State} (h : step s = .next t) : RegEffect s t := by
  cases step_next h with
  | completes u hu busy mover h =>
    refine .completes busy mover (by simp [nextWrite, mover]) ?_
    rw [h, hu]
    cases outcomeOfWord s.bounds s.cmd s.a s.b s.m <;> rfl
  | hostActs u act rest hu mover script h =>
    have hw : nextWrite s = portWriteOf u.bus act := by simp [nextWrite, mover, script, hu]
    rcases h.writes_or_keeps with ⟨r, v, hp, ht⟩ | ⟨hp, ht⟩
    · exact .writes r v mover (hw.trans hp) (by rw [ht]; exact State.hostWrite_toRegs_congr (by rw [hu]) r v)
    · exact .keeps (.inl mover) (hw.trans hp) (by rw [ht, hu])
  | resets u hu mover h => exact .resets mover (by rw [h]; rfl)
  | passes idle h =>
    have noWrite : nextWrite s = none := by
      rcases idle with ⟨mover, _⟩ | ⟨mover, script⟩
      · simp [nextWrite, mover]
      · simp [nextWrite, mover, script]
    exact .keeps (idle.symm.imp_left And.left) noWrite (by rw [h])

/-- No step changes the witness bounds (10_state.md R23). -/
theorem step_keeps_bounds {s t : State} (h : step s = .next t) : t.bounds = s.bounds := by
  cases step_next h with
  | completes u hu busy mover h => simp [h, hu]
  | hostActs u act rest hu mover script h =>
    obtain ⟨_, _, _, hbounds, _⟩ := h.frame
    rw [hbounds, hu]
  | resets u hu mover h => simp [h, hu]
  | passes idle h => rw [h]

/-- A host write of a guarded register loads it while idle (10_state.md R30, R31) and leaves it while busy (R32). -/
theorem step_writes_guarded {s t : State} (h : step s = .next t) {r : Reg} {v : Word}
    (hw : nextWrite s = some (r, v)) (hg : guarded r = true) :
    t.readReg r = if s.busy then s.readReg r else v := by
  cases step_regEffect h with
  | completes _ _ noWrite _ => simp [noWrite] at hw
  | writes r' v' _ write h =>
    obtain ⟨rfl, rfl⟩ : r' = r ∧ v' = v := by simpa [write] using hw
    rw [readReg_of_toRegs h, State.readReg_hostWrite _ _ _ hg]
    cases s.busy <;> simp
  | resets mover _ => simp [nextWrite, mover] at hw
  | keeps _ noWrite _ => simp [noWrite] at hw

/-- Outside a reset, a guarded register stays while the block is busy, and whenever the host does not write it
(10_state.md R11, R16, R18). -/
theorem step_keeps_guarded {s t : State} (h : step s = .next t) (hm : nextMover s ≠ .reset) {r : Reg}
    (hg : guarded r = true) (hw : s.busy = true ∨ ∀ v, nextWrite s ≠ some (r, v)) : t.readReg r = s.readReg r := by
  cases step_regEffect h with
  | completes _ _ _ h => rw [readReg_of_toRegs h, readReg_complete _ _ hg]
  | writes r' v' _ write h =>
    rw [readReg_of_toRegs h, State.readReg_hostWrite _ _ _ hg, if_neg]
    rintro ⟨rfl, idle⟩
    rcases hw with busy | hw
    · simp [busy] at idle
    · exact hw v' write
  | resets mover _ => exact absurd mover hm
  | keeps _ _ h => exact readReg_of_toRegs h r

/-! ## The invariant -/

/-- The invariant speaks of `CMD`, the results and the fields of `STATUS` other than `OVR` only. -/
theorem Inv.of_same_fields {s t : State} (hs : Inv s) (busy : t.busy = s.busy) (done : t.done = s.done)
    (err : t.err = s.err) (reserved : statusReserved t.status = statusReserved s.status) (cmd : t.cmd = s.cmd)
    (results : SameResults s t) : Inv t := by
  obtain ⟨r0, r1, r2⟩ := results
  constructor
  · rw [busy, done, err]; exact hs.busyClears
  · rw [done, err]; exact hs.notDoneNoErr
  · rw [reserved]; exact hs.reservedZero
  · rw [busy, done, cmd, r0, r1, r2]; exact hs.freshAfterReset
  · rw [done, cmd, err]; exact hs.errOfCommand
  · rw [done, cmd, err]; exact hs.errOfIllegal

theorem Inv.of_toRegs {s t : State} (hs : Inv s) (h : t.toRegs = s.toRegs) : Inv t :=
  hs.of_same_fields (busy_of_toRegs h) (done_of_toRegs h) (err_of_toRegs h) (by rw [h]) (by rw [h])
    (sameResults_of_toRegs h)

/-- Accepting a command makes the block busy with `DONE` and `ERR` clear, whatever the word. -/
theorem Inv.accept {s : State} (hs : Inv s) (v : Word) : Inv (s.accept v) where
  busyClears := by simp
  notDoneNoErr := by simp
  reservedZero := by simpa using hs.reservedZero
  freshAfterReset := by simp
  errOfCommand := by simp
  errOfIllegal := by simp

theorem Inv.hostWrite {s : State} (hs : Inv s) (r : Reg) (v : Word) : Inv (s.hostWrite r v) := by
  rcases s.hostWrite_accepts_or_keeps r v with ⟨_, _, h⟩ | ⟨_, busy, done, err, cmd⟩
  · rw [h]; exact hs.accept v
  · exact hs.of_same_fields busy done err (by simp) cmd (by simp [SameResults])

/-- The code a completion leaves is one the decoded command can raise. -/
theorem complete_err_of_command {s : State} {i : Instr} (bounds : OpenBounds) (a b m : Word)
    (hi : decode s.cmd = .command i) :
    (s.complete (outcomeOfWord bounds s.cmd a b m)).err = 0 ∨
      ∃ k ∈ errorsOf i, (s.complete (outcomeOfWord bounds s.cmd a b m)).err = errCode k := by
  have ho : outcomeOfWord bounds s.cmd a b m = outcomeOf bounds i a b m := by simp [outcomeOfWord, hi]
  rw [ho]
  cases h : outcomeOf bounds i a b m with
  | ok1 v0 => simp
  | ok3 v0 v1 v2 => simp
  | err k => exact .inr ⟨k, outcomeOf_err_mem h, by simp⟩

/-- A completion of the word in `CMD` makes the block idle with `DONE` set and a code the word can raise. -/
theorem Inv.complete {s : State} (hs : Inv s) (bounds : OpenBounds) (a b m : Word) :
    Inv (s.complete (outcomeOfWord bounds s.cmd a b m)) where
  busyClears := by simp
  notDoneNoErr := by simp
  reservedZero := by simpa using hs.reservedZero
  freshAfterReset := by simp
  errOfCommand i _ hi := complete_err_of_command bounds a b m (by simpa using hi)
  errOfIllegal why _ hi := by
    rw [State.complete_cmd] at hi
    simp [outcomeOfWord, hi, errCode]

/-- A reset meets the invariant from any state. -/
theorem Inv.resetRegs (s : State) : Inv s.resetRegs where
  busyClears := by simp
  notDoneNoErr := by simp
  reservedZero := by simp [statusReserved]
  freshAfterReset := by simp
  errOfCommand := by simp
  errOfIllegal := by simp

/-! ## The whole-machine rules -/

/-- Settles O18: each of the four effects a step has on the registers keeps the invariant. -/
theorem stepKeepsStatusInvariant : Obligations.StepKeepsStatusInvariant := by
  intro s t hs h
  cases step_regEffect h with
  | completes _ _ _ h => exact (hs.complete s.bounds s.a s.b s.m).of_toRegs h
  | writes r v _ _ h => exact (hs.hostWrite r v).of_toRegs h
  | resets _ h => exact (Inv.resetRegs s).of_toRegs h
  | keeps _ _ h => exact hs.of_toRegs h

/-- Settles O19: the reset state's registers are all zero. -/
theorem resetMeetsStatusInvariant : Obligations.ResetMeetsStatusInvariant :=
  (Inv.resetRegs State.reset).of_toRegs rfl

/-- From an idle block no step raises `DONE` (10_state.md R19, R33). -/
theorem step_idle_keeps_not_done {s t : State} (h : step s = .next t) (idle : s.busy = false)
    (hd : t.done = true) : s.done = true := by
  cases step_regEffect h with
  | completes busy _ _ _ => simp [idle] at busy
  | writes r v _ _ h => rw [done_of_toRegs h] at hd; exact State.done_of_done_hostWrite hd
  | resets _ h =>
    rw [done_of_toRegs h] at hd
    simp at hd
  | keeps _ _ h => rwa [done_of_toRegs h] at hd

/-- Settles O10: `COMPLETE` is one completion with the outcome of the word in `CMD`. -/
theorem completeReportsTheOutcome : Obligations.CompleteReportsTheOutcome := by
  refine ⟨fun s busy mover => ?_, fun s t h idle hd => step_idle_keeps_not_done h idle hd⟩
  refine ⟨_, (step_engine busy mover).trans (engineComplete_eq _), ?_⟩
  refine ⟨by simp, by simp, State.complete_ovr _ _, reports_complete _ _, by simp [SameOperands], ?_⟩
  simp

/-- Settles O20: `BUSY` after each of the four effects of a step on the registers. -/
theorem busySpansAcceptToComplete : Obligations.BusySpansAcceptToComplete := by
  intro s t h
  have operands : s.busy = true → nextMover s ≠ .reset → SameOperands s t := fun busy hm =>
    have kept (r : Reg) (hg : guarded r = true) := step_keeps_guarded h hm hg (.inl busy)
    ⟨kept .a rfl, kept .b rfl, kept .m rfl, kept .cmd rfl⟩
  cases step_regEffect h with
  | completes _ mover _ h =>
    have idle : t.busy = false := (busy_of_toRegs h).trans (s.complete_busy _)
    exact ⟨by simp [mover], fun _ => idle, fun _ => idle, operands⟩
  | writes r v mover write h =>
    refine ⟨fun _ => ?_, by simp [mover], by simp [mover], operands⟩
    rw [busy_of_toRegs h, State.busy_hostWrite, write]
    simp
  | resets mover h =>
    have idle : t.busy = false := (busy_of_toRegs h).trans s.resetRegs_busy
    exact ⟨by simp [mover], fun _ => idle, fun _ => idle, operands⟩
  | keeps mover noWrite h =>
    rw [busy_of_toRegs h]
    rcases mover with mover | ⟨mover, idle⟩
    · exact ⟨by simp [noWrite], by simp [mover], by simp [mover], operands⟩
    · exact ⟨by simp [mover], fun _ => idle, fun _ => idle, operands⟩

/-- Settles O21: a guarded register is loaded by a host write while idle and else kept. -/
theorem operandsChangeOnlyByIdleWrites : Obligations.OperandsChangeOnlyByIdleWrites := by
  intro s t h hm
  have kept (r : Reg) (hg : guarded r = true) (hw : ∀ v, nextWrite s = some (r, v) → False) :=
    step_keeps_guarded h hm hg (.inr hw)
  refine ⟨?_, ?_, ?_, ?_⟩
  · split
    next v hw => exact step_writes_guarded h hw rfl
    next hw => exact kept .a rfl hw
  · split
    next v hw => exact step_writes_guarded h hw rfl
    next hw => exact kept .b rfl hw
  · split
    next v hw => exact step_writes_guarded h hw rfl
    next hw => exact kept .m rfl hw
  · split
    next v hw => exact step_writes_guarded h hw rfl
    next hw => exact kept .cmd rfl hw

/-- Settles O22: outside a reset only a completion changes a result, and only an `Ok` outcome of EGCD reaches `R1` and
`R2`. -/
theorem resultsChangeOnlyByOkCompletion : Obligations.ResultsChangeOnlyByOkCompletion := by
  intro s t h hm
  have unchanged (same : SameResults s t) :
      (¬ SameResults s t → s.busy = true ∧ nextMover s = .engine ∧ t.busy = false ∧ t.done = true ∧ t.err = 0) ∧
      (t.r1 ≠ s.r1 ∨ t.r2 ≠ s.r2 → decode s.cmd = .command .egcd) := by
    refine ⟨fun hn => absurd same hn, fun hn => ?_⟩
    obtain ⟨_, hr1, hr2⟩ := same
    simp [hr1, hr2] at hn
  cases step_regEffect h with
  | completes busy mover _ h =>
    refine ⟨fun hn => ⟨busy, mover, ?_, ?_, ?_⟩, fun hn => ?_⟩
    · rw [busy_of_toRegs h]; simp
    · rw [done_of_toRegs h]; simp
    · rw [err_of_toRegs h]
      exact complete_err_eq_zero_of_results_change (by simpa [SameResults, h] using hn)
    · by_contra hc
      obtain ⟨hr1, hr2⟩ := complete_keeps_r1_r2 (outcomeOfWord s.bounds s.cmd s.a s.b s.m) s
        fun v0 v1 v2 ho => hc (decode_egcd_of_ok3 ho)
      simp [h, hr1, hr2] at hn
  | writes r v _ _ h => exact unchanged (by simp [SameResults, h])
  | resets mover _ => exact absurd mover hm
  | keeps _ _ h => exact unchanged (sameResults_of_toRegs h)

/-- Settles O23: `OVR` after each of the four effects of a step on the registers. -/
theorem overrunMarksProtocolBreaks : Obligations.OverrunMarksProtocolBreaks := by
  intro s t h
  cases step_regEffect h with
  | completes _ mover noWrite h => rw [ovr_of_toRegs h]; simp [mover, breaksProtocol, noWrite]
  | writes r v mover write h =>
    rw [ovr_of_toRegs h, State.ovr_hostWrite]
    cases r <;> simp [mover, breaksProtocol, write]
  | resets mover h =>
    rw [ovr_of_toRegs h]
    simp [mover]
  | keeps mover noWrite h =>
    rw [ovr_of_toRegs h]
    rcases mover with mover | ⟨mover, _⟩ <;> simp [mover, breaksProtocol, noWrite]

/-- Settles O24: eleven open bounds and two fixed ones for thirteen primes, and no step writes the bounds. -/
theorem witnessTableNeverChanges : Obligations.WitnessTableNeverChanges :=
  ⟨fun bounds => by simp [witnessTable, witnessPrimes, witnessBounds], fun s t h => by rw [step_keeps_bounds h]⟩

/-! ## The rules about every command -/

/-- Settles O29: the outcome is the same in both states, so `ERR` is, and so is every result it writes. -/
theorem outcomeDependsOnlyOnReads : Obligations.OutcomeDependsOnlyOnReads := by
  intro i s u hr hb
  have same := outcomeOf_congr_reads hr hb
  refine ⟨_, _, exec_eq_complete i s, (exec_eq_complete i u).trans (by rw [← same]), complete_err_congr _ s u, ?_⟩
  intro noErr r hw
  cases ho : outcomeOf s.bounds i s.a s.b s.m with
  | ok1 v0 =>
    obtain rfl : r = .r0 := by simpa [writesOf_of_ok1 ho] using hw
    simp [State.readReg]
  | ok3 v0 v1 v2 =>
    obtain rfl := egcd_of_ok3 ho
    obtain rfl | rfl | rfl : r = .r0 ∨ r = .r1 ∨ r = .r2 := by simpa [writesOf] using hw
    all_goals simp [State.readReg]
  | err k => exact absurd (by simpa [ho] using noErr) (errCode_ne_zero k)

/-- Settles O30: every command is a completion, and no command but EGCD has an outcome of three values. -/
theorem commandFrame : Obligations.CommandFrame := by
  intro i s
  refine ⟨_, exec_eq_complete i s, by simp [SameOperands], by simp [SameSurroundings], by simp, by simp, by simp,
    by simp, fun hi => ?_⟩
  exact complete_keeps_r1_r2 _ s fun v0 v1 v2 ho => hi (egcd_of_ok3 ho)

/-! ## The step and the interface -/

/-- Settles O5: the engine's turn dispatches on what `CMD` decodes to. -/
theorem stepRunsDecodedCommand : Obligations.StepRunsDecodedCommand := by
  intro s i busy mover hi
  rw [step_engine busy mover]
  simp [engineComplete, hi]

/-- The command word of a command decodes to it (30_encoding.md R62). -/
theorem decode_encode (i : Instr) : decode (encode i) = .command i := by cases i <;> decide

/-- Settles O6: the stored word is the `CMD` of a busy block with the engine to move, and decodes to its command. -/
theorem storedWordRunsNext : Obligations.StoredWordRunsNext := by
  intro s i
  have hs : s.withFetchWord 64 (encode i).toNat = acceptedNext s (encode i) := by
    simp [State.withFetchWord, Nat.mod_eq_of_lt (encode i).isLt]
  have busy : (acceptedNext s (encode i)).busy = true := s.accept_busy (encode i)
  rw [hs, stepRunsDecodedCommand _ i busy rfl (decode_encode i)]
  rfl

/-- When the host moves next with `WR r, v`, a step is that write, the turn and the action taken off. -/
theorem step_host_wr {s : State} {r : Reg} {v : Word} {rest : List HostAction} (hm : nextMover s = .host)
    (hs : s.script = .wr r v :: rest) :
    step s = .next (State.hostWrite { s with turns := s.turns.tail, script := rest } r v) := step_host hm hs

/-- Settles O7: an idle write of an operand register loads it (10_state.md R30). -/
theorem idleWriteLoadsOperand : Obligations.IdleWriteLoadsOperand := by
  intro s v rest hm idle
  have load {r : Reg} (hs : s.script = .wr r v :: rest) :=
    (step_host_wr hm hs).trans (congrArg _ (State.hostWrite_idle _ r v idle))
  exact ⟨fun hs => load hs, fun hs => load hs, fun hs => load hs⟩

/-- Settles O8: an idle write of `CMD` is an accept, whatever the value (10_state.md R31). -/
theorem idleCommandWriteIsAccepted : Obligations.IdleCommandWriteIsAccepted := by
  intro s v rest hm idle hs
  refine ⟨_, (step_host_wr hm hs).trans (congrArg _ (State.hostWrite_idle _ .cmd v idle)), ?_⟩
  exact ⟨by simp, by simp, by simp, by simp, State.accept_ovr _ v, by simp, by simp, by simp, by simp,
    by simp [SameResults], by simp⟩

/-- Settles O9: a busy write of a guarded register is dropped (10_state.md R32). -/
theorem busyWriteIsDroppedAndMarked : Obligations.BusyWriteIsDroppedAndMarked := by
  intro s r v rest hm busy hs hr
  have hg : guarded r = true := by rcases hr with rfl | rfl | rfl | rfl <;> rfl
  refine ⟨_, (step_host_wr hm hs).trans (congrArg _ (State.hostWrite_dropped v busy hg)), ?_⟩
  exact ⟨by simp [SameOperands], by simp [SameResults], by simp, State.dropWrite_busy _, State.dropWrite_done _,
    State.dropWrite_err _, by simp⟩

/-- Settles O11: the reply is `readReg`, which shows the four fields of `STATUS` and zero above them (10_state.md R34). -/
theorem hostReadReturnsTheRegister : Obligations.HostReadReturnsTheRegister := by
  intro s r rest hm hs
  refine ⟨_, _, step_host hm hs, rfl, rfl, rfl, rfl, rfl, rfl, ?_, ?_, ?_, ?_, ?_, ?_, ?_, ?status⟩ <;> rintro rfl
  case status =>
    exact ⟨statusBusy_visible _, statusDone_visible _, statusErr_visible _, statusOvr_visible _,
      statusReserved_visible _⟩
  all_goals rfl

/-- Settles O12: a write of `STATUS` touches `OVR` alone and a write of a result register nothing (10_state.md R35). -/
theorem statusAndResultWrites : Obligations.StatusAndResultWrites := by
  intro s v rest hm
  refine ⟨fun hs => ⟨_, step_host_wr hm hs, ?_⟩, fun r hr hs => ?_⟩
  · exact ⟨statusOvr_hostWrite _ v, statusBusy_hostWrite _ v, statusDone_hostWrite _ v, statusErr_hostWrite _ v,
      by simp, ⟨rfl, rfl, rfl, rfl⟩, by simp [SameResults], by simp⟩
  · rw [step_host_wr hm hs]
    rcases hr with rfl | rfl | rfl <;> rfl

/-! ## The witness primes -/

/-- The divisors to try below a number are finitely many, so `prime` can be evaluated. -/
theorem prime_iff_forall_lt (n : Nat) : prime n ↔ 2 ≤ n ∧ ∀ k < n, 1 < k → ¬ k ∣ n :=
  and_congr_right fun _ => forall_congr' fun _ => forall_comm

/-- Settles O25: the 42 numbers up to 41 are tried one by one; the list holds no other number. -/
theorem witnessPrimesAreThePrimesTo41 : Obligations.WitnessPrimesAreThePrimesTo41 := by
  have upTo : ∀ p < 42, p ∈ witnessPrimes ↔ 2 ≤ p ∧ ∀ k < p, 1 < k → ¬ k ∣ p := by decide
  have below : ∀ p ∈ witnessPrimes, p < 42 := by decide
  refine ⟨fun p => ⟨fun hp => ?_, fun ⟨hp, hle⟩ => ?_⟩, by decide⟩
  · have hlt := below p hp
    exact ⟨(prime_iff_forall_lt p).mpr ((upTo p hlt).mp hp), Nat.le_of_lt_succ hlt⟩
  · exact (upTo p (Nat.lt_succ_of_le hle)).mpr ((prime_iff_forall_lt p).mp hp)

end Sys2Proof.Machine

namespace Sys2Proof.Machine

/-! SUPPORT and the statements of 20_memory.md: a bus access as the register access it stands for, when a step is
refused, what no step changes, and a busy block through the host's turns before `COMPLETE`. -/

/-! ## When a step is refused -/

/-- An ill-formed host action is a bus access that names no slot, so it is refused (20_memory.md R42). -/
theorem hostAction_refused {act : HostAction} {s : State} (hw : act.wf s.bus.base = false) (rest : List HostAction) :
    hostAction act rest s = .refused .partialBusAccess := by
  have noSlot {address width : Nat} (h : wholeRegister s.bus.base address width = false) :
      slotAt s.bus address width = none := by
    rw [← slotAt_isSome] at h
    simpa using h
  cases act with
  | wr r v | rd r | wait => cases hw
  | busWr address bytes => simp only [hostAction, noSlot hw]
  | busRd address width => simp only [hostAction, noSlot hw]

/-- When the host moves next with an ill-formed action, the step is refused (20_memory.md R42). -/
theorem step_host_refused {s : State} {act : HostAction} {rest : List HostAction} (hm : nextMover s = .host)
    (hs : s.script = act :: rest) (hw : act.wf s.bus.base = false) : step s = .refused .partialBusAccess :=
  (step_host hm hs).trans (hostAction_refused (s := { s with turns := s.turns.tail }) hw rest)

/-- A step answers a next state, or it is refused for an ill-formed action of the host, who moves next. -/
theorem step_next_or_refused (s : State) :
    (∃ t, step s = .next t) ∨
    (step s = .refused .partialBusAccess ∧
      nextMover s = .host ∧ ∃ act rest, s.script = act :: rest ∧ act.wf s.bus.base = false) := by
  cases hm : nextMover s with
  | reset => exact .inl ⟨_, step_reset hm⟩
  | engine =>
    cases hb : s.busy with
    | true => exact .inl ⟨_, (step_engine hb hm).trans (engineComplete_eq _)⟩
    | false => exact .inl ⟨_, step_passes (.inl ⟨hm, hb⟩)⟩
  | host =>
    cases hs : s.script with
    | nil => exact .inl ⟨_, step_passes (.inr ⟨hm, hs⟩)⟩
    | cons act rest =>
      cases hw : act.wf s.bus.base with
      | true =>
        obtain ⟨t, ht⟩ := hostAction_wf (s := { s with turns := s.turns.tail }) hw rest
        exact .inl ⟨t, (step_host hm hs).trans ht⟩
      | false => exact .inr ⟨step_host_refused hm hs hw, rfl, act, rest, rfl, hw⟩

/-- Settles O17: an ill-formed action of the host is refused, and every other step answers a next state. -/
theorem stepStopsOnlyOnPartialBusAccess : Obligations.StepStopsOnlyOnPartialBusAccess := by
  intro s
  refine ⟨⟨fun h => ?_, fun ⟨hm, act, rest, hs, hw⟩ => ?_⟩, (step_next_or_refused s).imp_right And.left⟩
  · rcases step_next_or_refused s with ⟨t, ht⟩ | ⟨_, cause⟩
    · rw [ht] at h
      cases h
    · exact cause
  · exact step_host_refused hm hs hw

/-! ## A bus access of one whole register -/

/-- A bus write of the eight bytes of slot `j` is the write of the slot's register (20_memory.md R41, R42). -/
theorem step_host_busWr {s : State} {j : Fin 8} {bytes : List Byte} {rest : List HostAction}
    (hm : nextMover s = .host) (hl : bytes.length = 8)
    (hs : s.script = .busWr (s.bus.base + 8 * j.val) bytes :: rest) :
    step s = step { s with script := .wr s.bus.slots[j].reg (slotWord s.bus.slots[j] bytes) :: rest } := by
  rw [step_host hm hs]
  simp only [hostAction, hl, slotAt_slot]
  exact (step_host_wr (s := { s with script := .wr _ _ :: rest }) hm rfl).symm

/-- A bus read of the eight bytes of slot `j` answers the slot's bytes of its register (20_memory.md R41, R42). -/
theorem step_host_busRd {s : State} {j : Fin 8} {rest : List HostAction} (hm : nextMover s = .host)
    (hs : s.script = .busRd (s.bus.base + 8 * j.val) 8 :: rest) :
    step s = .next { s with
      turns := s.turns.tail, script := rest,
      replies := s.replies ++
        [.bus (s.bus.base + 8 * j.val) (slotBytes s.bus.slots[j] (s.readReg s.bus.slots[j].reg))] } := by
  rw [step_host hm hs]
  simp only [hostAction, slotAt_slot]
  rfl

/-- Settles O16: the written value is the slot's word of the bytes, and the bytes read are the slot's bytes of the
register, which keep every bit in a well-formed slot. -/
theorem wholeRegisterBusAccess : Obligations.WholeRegisterBusAccess := by
  intro s j rest hm
  refine ⟨fun bytes hl hs => ⟨_, slotWord_getLsbD _ bytes, step_host_busWr hm hl hs⟩, fun hs => ?_⟩
  refine ⟨_, slotBytes_length _ _, step_host_busRd hm hs, fun hw k => ?_⟩
  exact (placeBit_slotBytes _ _ _).trans (slotBit_place hw _ k)

/-- The recommended map puts register `i` into slot `i`, little-endian (20_memory.md R41). -/
theorem recommendedByteMap_index (r : Reg) : recommendedByteMap[r.index.toFin] = littleEndianSlot r := by
  cases r <;> rfl

/-- Settles O59: slot `i` is the little-endian slot of register `i`, whose bytes are the bytes of the word. -/
theorem recommendedByteMapIsLittleEndian : Obligations.RecommendedByteMapIsLittleEndian := by
  intro s r v rest hm hslots
  have slot : s.bus.slots[r.index.toFin] = littleEndianSlot r := by rw [hslots, recommendedByteMap_index]
  refine ⟨fun hs => ?_, fun hs => ?_⟩
  · have write := step_host_busWr (j := r.index.toFin) hm rfl hs
    rwa [slot, slotWord_littleEndian] at write
  · have read := step_host_busRd (j := r.index.toFin) hm hs
    rwa [slot, slotBytes_littleEndian] at read

/-! ## What no step changes -/

/-- No step changes `BASE` or `BYTE_MAP` (20_memory.md R41, R44). -/
theorem step_keeps_bus {s t : State} (h : step s = .next t) : t.bus = s.bus := by
  cases step_next h with
  | completes u hu _ _ h => simp [h, hu]
  | hostActs u act rest hu _ _ h =>
    obtain ⟨_, _, _, _, hbus, _⟩ := h.frame
    rw [hbus, hu]
  | resets u hu _ h => simp [h, hu]
  | passes _ h => rw [h]

/-- Every step uses one turn (20_memory.md R52). -/
theorem step_uses_turn {s t : State} (h : step s = .next t) : t.turns = s.turns.tail := by
  cases step_next h with
  | completes u hu _ _ h => simp [h, hu]
  | hostActs u act rest hu _ _ h =>
    obtain ⟨_, _, _, _, _, hturns⟩ := h.frame
    rw [hturns, hu]
  | resets u hu _ h => simp [h, hu]
  | passes _ h => rw [h]

/-- A host action is taken off the script, or it is a `WAIT` that stays (30_encoding.md R68). -/
theorem HostEffect.script_eq {act : HostAction} {rest : List HostAction} {s t : State}
    (h : HostEffect act rest s t) : t.script = rest ∨ t.script = s.script := by
  cases h with
  | write r v _ h => simp [h]
  | read r _ h => simp [h]
  | busRead slot address _ h => exact .inl (by rw [h]; rfl)
  | poll _ h =>
    rw [h, waitPoll]
    split
    · exact .inr rfl
    · exact .inl rfl

/-- No step puts an action into the host's script (20_memory.md R46). -/
theorem step_script_subset {s t : State} (h : step s = .next t) : t.script ⊆ s.script := by
  cases step_next h with
  | completes u hu _ _ h => simp [h, hu]
  | hostActs u act rest hu _ script h =>
    rcases h.script_eq with h | h
    · rw [h, script]; exact List.subset_cons_self act rest
    · rw [h, hu]; exact List.Subset.refl _
  | resets u hu _ h => simp [h, hu]
  | passes _ h => rw [h]; exact List.Subset.refl _

/-! ## A step under another bus map -/

/-- The same state on a platform with another `BASE` and `BYTE_MAP`. -/
def State.withBus (s : State) (bus : BusMap) : State := { s with bus := bus }

theorem State.complete_withBus (s : State) (o : CmdOutcome) (bus : BusMap) :
    (s.withBus bus).complete o = (s.complete o).withBus bus := by
  cases o <;> rfl

theorem State.hostWrite_withBus (s : State) (r : Reg) (v : Word) (bus : BusMap) :
    (s.withBus bus).hostWrite r v = (s.hostWrite r v).withBus bus := by
  cases hb : s.busy with
  | true => rw [s.hostWrite_busy r v hb, (s.withBus bus).hostWrite_busy r v hb]; cases r <;> rfl
  | false => rw [s.hostWrite_idle r v hb, (s.withBus bus).hostWrite_idle r v hb]; cases r <;> rfl

theorem waitPoll_withBus (s : State) (rest : List HostAction) (bus : BusMap) :
    waitPoll (s.withBus bus) rest = (waitPoll s rest).withBus bus := by
  have busy : (s.withBus bus).busy = s.busy := rfl
  simp only [waitPoll, busy]
  split <;> rfl

/-- A host action that is no bus access is the same action under any bus map. -/
theorem hostAction_withBus {act : HostAction} {rest : List HostAction} {s t : State} (hb : onBus act = false)
    (h : hostAction act rest s = .next t) (bus : BusMap) :
    hostAction act rest (s.withBus bus) = .next (t.withBus bus) := by
  cases act with
  | wr r v => cases h; exact congrArg _ (State.hostWrite_withBus { s with script := rest } r v bus)
  | rd r => cases h; rfl
  | wait => cases h; exact congrArg _ (waitPoll_withBus s rest bus)
  | busWr address bytes | busRd address width => cases hb

/-- A step in which the host makes no bus access is the same step under any bus map. -/
theorem step_withBus {s t : State} (h : step s = .next t) (hb : ∀ act ∈ s.script.head?, onBus act = false)
    (bus : BusMap) : step (s.withBus bus) = .next (t.withBus bus) := by
  have mover : nextMover (s.withBus bus) = nextMover s := rfl
  have sameScript : (s.withBus bus).script = s.script := rfl
  cases step_next h with
  | completes u hu busy hm h =>
    rw [step_engine (s := s.withBus bus) busy (mover.trans hm), engineComplete_eq, h, hu]
    exact congrArg _ (State.complete_withBus { s with turns := s.turns.tail } _ bus)
  | hostActs u act rest hu hm hs _ =>
    rw [step_host hm hs] at h
    rw [step_host (mover.trans hm) (sameScript.trans hs)]
    exact hostAction_withBus (hb act (by simp [hs])) h bus
  | resets u hu hm h =>
    rw [step_reset (mover.trans hm), h, hu]
    rfl
  | passes idle h =>
    rw [step_passes (s := s.withBus bus) idle, h]
    rfl

/-- Settles O60: no step writes the map, and only a bus access reads it. -/
theorem byteMapMattersToBusAccessesOnly : Obligations.ByteMapMattersToBusAccessesOnly :=
  fun _ _ h => ⟨step_keeps_bus h, fun hb bus => step_withBus h hb bus⟩

/-! ## A command in flight -/

/-- `u` shows the command word `v` in flight, accepted on the registers of `s`: `BUSY = 1`, `DONE = 0`, `ERR = 0`, and
the operands, the results and the witness bounds are those of `s` (20_memory.md R47). -/
structure InFlight (s : State) (v : Word) (u : State) : Prop where
  busy : u.busy = true
  done : u.done = false
  err : u.err = 0
  results : SameResults s u
  a : u.a = s.a
  b : u.b = s.b
  m : u.m = s.m
  cmd : u.cmd = v
  bounds : u.bounds = s.bounds

/-- A step answers a next state when every action of the script is well-formed. -/
theorem step_of_script_wf {s : State} (hw : ∀ act ∈ s.script, act.wf s.bus.base = true) :
    ∃ t, step s = .next t := by
  rcases step_next_or_refused s with h | ⟨_, _, act, rest, hs, hbad⟩
  · exact h
  · have := hw act (by simp [hs])
    simp [hbad] at this

/-- A script of well-formed actions stays one. -/
theorem step_keeps_script_wf {s t : State} (h : step s = .next t)
    (hw : ∀ act ∈ s.script, act.wf s.bus.base = true) : ∀ act ∈ t.script, act.wf t.bus.base = true := by
  rw [step_keeps_bus h]
  exact fun act ha => hw act (step_script_subset h ha)

/-- A host turn changes no field of a busy block's `STATUS` but `OVR`, and no result (20_memory.md R47). -/
theorem step_host_busy {s t : State} (h : step s = .next t) (busy : s.busy = true) (hm : nextMover s = .host) :
    t.busy = true ∧ t.done = s.done ∧ t.err = s.err ∧ SameResults s t := by
  cases step_regEffect h with
  | completes _ mover _ _ => simp [hm] at mover
  | writes r v _ _ h =>
    rw [busy_of_toRegs h, done_of_toRegs h, err_of_toRegs h]
    rcases s.hostWrite_accepts_or_keeps r v with ⟨_, idle, _⟩ | ⟨_, hbusy, hdone, herr, _⟩
    · simp [busy] at idle
    · exact ⟨hbusy.trans busy, hdone, herr, by simp [SameResults, h]⟩
  | resets mover _ => simp [hm] at mover
  | keeps _ _ h => exact ⟨(busy_of_toRegs h).trans busy, done_of_toRegs h, err_of_toRegs h, sameResults_of_toRegs h⟩

/-- A host turn keeps the command in flight. -/
theorem InFlight.of_host_step {s u t : State} {v : Word} (hf : InFlight s v u) (h : step u = .next t)
    (hm : nextMover u = .host) : InFlight s v t := by
  obtain ⟨busy, done, err, r0, r1, r2⟩ := step_host_busy h hf.busy hm
  obtain ⟨_, _, _, operands⟩ := busySpansAcceptToComplete u t h
  obtain ⟨a, b, m, cmd⟩ := operands hf.busy (by simp [hm])
  obtain ⟨hr0, hr1, hr2⟩ := hf.results
  exact ⟨busy, done.trans hf.done, err.trans hf.err, ⟨r0.trans hr0, r1.trans hr1, r2.trans hr2⟩, a.trans hf.a,
    b.trans hf.b, m.trans hf.m, cmd.trans hf.cmd, (step_keeps_bounds h).trans hf.bounds⟩

/-- A run's first step taken off. -/
theorem run_succ {s t : State} (h : step s = .next t) (n : Nat) : run (n + 1) s = run n t := by
  rw [run, h]

/-- Any number of host turns keeps the command in flight, the host's actions being well-formed. -/
theorem InFlight.after_host_turns {s u : State} {v : Word} {k : Nat} {ts : List Turn} (hf : InFlight s v u)
    (hw : ∀ act ∈ u.script, act.wf u.bus.base = true) (hts : u.turns = List.replicate k .host ++ ts) :
    ∃ t, run k u = .next t ∧ InFlight s v t ∧ t.turns = ts := by
  induction k generalizing u with
  | zero => exact ⟨u, rfl, hf, hts⟩
  | succ k ih =>
    have hm : nextMover u = .host := by simp [nextMover, hts, List.replicate_succ]
    obtain ⟨t, ht⟩ := step_of_script_wf hw
    rw [run_succ ht]
    exact ih (hf.of_host_step ht hm) (step_keeps_script_wf ht hw)
      (by simp [step_uses_turn ht, hts, List.replicate_succ])

/-- The accept of a command puts it in flight on the registers as they stand (10_state.md R31). -/
theorem step_accepts_inFlight {s : State} {v : Word} {rest : List HostAction} (hm : nextMover s = .host)
    (idle : s.busy = false) (hs : s.script = .wr .cmd v :: rest) :
    ∃ u, step s = .next u ∧ InFlight s v u ∧ u.script = rest := by
  obtain ⟨u, hu, cmd, busy, done, err, _, _, a, b, m, results, bounds, _, script, _⟩ :=
    idleCommandWriteIsAccepted s v rest hm idle hs
  exact ⟨u, hu, ⟨busy, done, err, results, a, b, m, cmd, bounds⟩, script⟩

/-- A report depends on the earlier state's results alone. -/
theorem Reports.of_sameResults {o : CmdOutcome} {s u t : State} (h : Reports o u t) (hr : SameResults s u) :
    Reports o s t := by
  obtain ⟨h0, h1, h2⟩ := hr
  cases o <;> simpa [Reports, SameResults, h0, h1, h2] using h

/-- `COMPLETE` of a command in flight reports its outcome on the registers at the accept (20_memory.md R47). -/
theorem InFlight.completes {s u : State} {v : Word} (hf : InFlight s v u) (hm : nextMover u = .engine) :
    ∃ t, step u = .next t ∧ t.busy = false ∧ t.done = true ∧
      Reports (outcomeOfWord s.bounds v s.a s.b s.m) s t ∧ t.a = s.a ∧ t.b = s.b ∧ t.m = s.m ∧ t.cmd = v := by
  obtain ⟨reported, _⟩ := completeReportsTheOutcome
  obtain ⟨t, ht, busy, done, _, reports, ⟨a, b, m, cmd⟩, _⟩ := reported u hf.busy hm
  rw [hf.bounds, hf.cmd, hf.a, hf.b, hf.m] at reports
  exact ⟨t, ht, busy, done, reports.of_sameResults hf.results, a.trans hf.a, b.trans hf.b, m.trans hf.m,
    cmd.trans hf.cmd⟩

/-- Settles O27: the accept puts the command in flight, the host's turns keep it there, and the engine completes it. -/
theorem outcomeFixedAtAccept : Obligations.OutcomeFixedAtAccept := by
  intro s v rest k ts idle hs hw hts
  have hm : nextMover s = .host := by simp [nextMover, hts, List.replicate_succ]
  obtain ⟨u, hu, hf, script⟩ := step_accepts_inFlight hm idle hs
  have hwu : ∀ act ∈ u.script, act.wf u.bus.base = true := by rwa [script, step_keeps_bus hu]
  have turns : u.turns = List.replicate k .host ++ .engine :: ts := by
    simp [step_uses_turn hu, hts, List.replicate_succ]
  refine ⟨fun j hj hjk => ?_, ?_⟩
  · obtain ⟨i, rfl⟩ := Nat.exists_eq_add_of_le' hj
    obtain ⟨d, rfl⟩ := Nat.exists_eq_add_of_le (Nat.le_of_succ_le_succ hjk)
    rw [List.replicate_add, List.append_assoc] at turns
    obtain ⟨w, hrun, hfw, _⟩ := hf.after_host_turns hwu turns
    exact ⟨w, (run_succ hu i).trans hrun, hfw.busy, hfw.done, hfw.err, hfw.results, hfw.a, hfw.b, hfw.m, hfw.cmd⟩
  · obtain ⟨w, hrun, hfw, hturns⟩ := hf.after_host_turns hwu turns
    obtain ⟨t, ht, reported⟩ := hfw.completes (by simp [nextMover, hturns])
    have hrun' : run (k + 1) s = .next w := (run_succ hu k).trans hrun
    exact ⟨t, (run_add hrun').trans (run_succ ht 0), reported⟩

end Sys2Proof.Machine

namespace Sys2Proof.Machine

/-! SUPPORT and the statements of 30_encoding.md: the two fields of a command word and the decoder by its fields, the
port triples, an illegal word, one poll of `WAIT`, and a call from its first operand write to its last read. -/

/-! ## The fields of a command word -/

theorem toNat_opcField (w : Word) : (opcField w).toNat = w.toNat % 16 := by
  simp [opcField]

theorem toNat_zeroField (w : Word) : (zeroField w).toNat = w.toNat / 16 := by
  rw [zeroField, BitVec.extractLsb'_toNat, Nat.shiftRight_eq_div_pow]
  exact Nat.mod_eq_of_lt (by omega)

theorem zeroField_eq_zero_iff (w : Word) : zeroField w = 0#60 ↔ w.toNat < 16 := by
  rw [← BitVec.toNat_inj, toNat_zeroField, BitVec.toNat_ofNat]
  omega

/-- A word is fixed by its two fields (30_encoding.md R60). -/
theorem word_eq_of_fields {v w : Word} (zero : zeroField v = zeroField w) (opc : opcField v = opcField w) : v = w := by
  rw [← BitVec.toNat_inj, toNat_zeroField, toNat_zeroField] at zero
  rw [← BitVec.toNat_inj, toNat_opcField, toNat_opcField] at opc
  exact BitVec.eq_of_toNat_eq (by omega)

theorem zeroField_encode (i : Instr) : zeroField (encode i) = 0#60 := by cases i <;> decide

theorem opcField_encode (i : Instr) : opcField (encode i) = i.opc := by cases i <;> decide

/-! ## The decoder by its fields -/

/-- The opcode map is one to one: a code selects a command exactly when it is that command's (30_encoding.md R62). -/
theorem commandOfOpc_eq_some_iff (opc : BitVec 4) (i : Instr) : commandOfOpc opc = some i ↔ opc = i.opc := by
  revert opc
  cases i <;> decide

/-- The unassigned codes (30_encoding.md R64). -/
theorem commandOfOpc_eq_none_iff (opc : BitVec 4) : commandOfOpc opc = none ↔ opc.toNat = 0 ∨ 11 ≤ opc.toNat := by
  revert opc
  decide

/-- What the decoder answers, by the fields it looks at in turn (30_encoding.md R63). -/
theorem decode_cases (w : Word) :
    (zeroField w ≠ 0#60 ∧ decode w = .illegal .zeroFieldSet) ∨
    (zeroField w = 0#60 ∧ commandOfOpc (opcField w) = none ∧ decode w = .illegal .unassignedOpcode) ∨
    (zeroField w = 0#60 ∧ ∃ i, commandOfOpc (opcField w) = some i ∧ decode w = .command i) := by
  by_cases zero : zeroField w = 0#60
  · cases opc : commandOfOpc (opcField w) <;> simp [decode, zero, opc]
  · exact .inl ⟨zero, if_pos zero⟩

theorem decode_eq_command_iff (w : Word) (i : Instr) :
    decode w = .command i ↔ zeroField w = 0#60 ∧ opcField w = i.opc := by
  rw [← commandOfOpc_eq_some_iff]
  rcases decode_cases w with ⟨zero, h⟩ | ⟨zero, opc, h⟩ | ⟨zero, j, opc, h⟩
  · simp [h, zero]
  · simp [h, opc]
  · simp [h, zero, opc]

theorem decode_eq_zeroFieldSet_iff (w : Word) : decode w = .illegal .zeroFieldSet ↔ zeroField w ≠ 0#60 := by
  rcases decode_cases w with ⟨zero, h⟩ | ⟨zero, opc, h⟩ | ⟨zero, j, opc, h⟩ <;> simp [h, zero]

theorem decode_eq_unassignedOpcode_iff (w : Word) :
    decode w = .illegal .unassignedOpcode ↔ zeroField w = 0#60 ∧ commandOfOpc (opcField w) = none := by
  rcases decode_cases w with ⟨zero, h⟩ | ⟨zero, opc, h⟩ | ⟨zero, j, opc, h⟩
  · simp [h, zero]
  · simp [h, zero, opc]
  · simp [h, opc]

/-- Settles O1: a word decodes to the command whose word has the same two fields. -/
theorem decodeSelectsExactlyTheTenWords : Obligations.DecodeSelectsExactlyTheTenWords := by
  intro w i
  refine ⟨fun h => ?_, fun h => h ▸ decode_encode i⟩
  obtain ⟨zero, opc⟩ := (decode_eq_command_iff w i).mp h
  exact word_eq_of_fields (zero.trans (zeroField_encode i).symm) (opc.trans (opcField_encode i).symm)

/-- Settles O3: `ZERO` is the number divided by 16, and `OPC` the number itself below 16. -/
theorem illegalWordsAreRejectedByName : Obligations.IllegalWordsAreRejectedByName := by
  intro w
  rw [decode_eq_zeroFieldSet_iff, decode_eq_unassignedOpcode_iff, commandOfOpc_eq_none_iff, toNat_opcField, ne_eq,
    zeroField_eq_zero_iff]
  constructor <;> omega

/-- Settles O2: the ten numbers are the ten commands' words. -/
theorem writtenOutCommandWordsDecode : Obligations.WrittenOutCommandWordsDecode :=
  ⟨decode_encode .addmod, decode_encode .submod, decode_encode .mulmod, decode_encode .powmod, decode_encode .egcd,
    decode_encode .modinv, decode_encode .divmod, decode_encode .isprime, decode_encode .isqrt,
    decode_encode .issquare⟩

/-! ## The port triples -/

theorem ofIndex_index (r : Reg) : Reg.ofIndex r.index = r := by cases r <;> rfl

theorem index_ofIndex (i : BitVec 3) : (Reg.ofIndex i).index = i := by
  revert i
  decide

/-- A triple that is a line is that line's triple; a write without data and a read with data are none. -/
theorem triple_of_action {p : PortTriple} {act : HostAction} (h : p.action = some act) : act.triple = some p := by
  match p, h with
  | ⟨true, i, some v⟩, h => cases h; simp [HostAction.triple, index_ofIndex]
  | ⟨false, i, none⟩, h => cases h; simp [HostAction.triple, index_ofIndex]
  | ⟨true, i, none⟩, h => cases h
  | ⟨false, i, some v⟩, h => cases h

/-- Settles O4: a register and its index determine each other, and the other parts of a triple are copied. -/
theorem portTripleRoundTrip : Obligations.PortTripleRoundTrip :=
  ⟨fun r v => by simp [HostAction.triple, PortTriple.action, ofIndex_index],
    fun r => by simp [HostAction.triple, PortTriple.action, ofIndex_index], fun _ _ h => triple_of_action h⟩

/-! ## An illegal word -/

/-- A word that is none of the ten is an illegal command whatever the operands (30_encoding.md R64). -/
theorem outcomeOfWord_illegal {v : Word} (h : v.toNat = 0 ∨ 11 ≤ v.toNat) (bounds : OpenBounds) (a b m : Word) :
    outcomeOfWord bounds v a b m = .err .illegalCommand := by
  obtain ⟨zeroFieldSet, unassigned⟩ := illegalWordsAreRejectedByName v
  unfold outcomeOfWord
  by_cases high : 16 ≤ v.toNat
  · rw [zeroFieldSet.mpr high]
  · rw [unassigned.mpr (by omega)]

theorem run_one (s : State) : run 1 s = step s := by
  rw [run]
  cases step s <;> rfl

/-- Settles O13: the accept takes any word, and `COMPLETE` reports that it selects no command. -/
theorem illegalCommandCompletesWithErrThree : Obligations.IllegalCommandCompletesWithErrThree := by
  intro s v rest ts idle hts hs hv
  obtain ⟨u, hu, cmd, busy, _, _, ovr, _, a, b, m, results, _, _, _, turns, _⟩ :=
    idleCommandWriteIsAccepted s v rest (by simp [nextMover, hts]) idle hs
  obtain ⟨reported, _⟩ := completeReportsTheOutcome
  obtain ⟨t, ht, idle', done, ovr', reports, ⟨ha, hb, hm, hcmd⟩, _⟩ :=
    reported u busy (by simp [nextMover, turns, hts])
  rw [cmd, outcomeOfWord_illegal hv] at reports
  obtain ⟨results', err⟩ := reports.of_sameResults results
  exact ⟨u, t, (run_one s).trans hu, cmd, busy, (run_succ hu 1).trans ((run_one u).trans ht),
    ⟨idle', done, err, ovr'.trans ovr⟩, results', ha.trans a, hb.trans b, hm.trans m, hcmd.trans cmd⟩

/-! ## One poll of WAIT -/

/-- A poll records `STATUS`, and ends `WAIT` when the block is idle (30_encoding.md R68). -/
theorem waitPoll_eq (s : State) (rest : List HostAction) :
    waitPoll s rest = { s with
      replies := s.replies ++ [.port .status (statusVisible s.status)]
      script := if s.busy then s.script else rest } := by
  unfold waitPoll
  split <;> rfl

theorem waitPoll_of_busy {s : State} (busy : s.busy = true) (rest : List HostAction) :
    waitPoll s rest = { s with replies := s.replies ++ [.port .status (statusVisible s.status)] } := by
  rw [waitPoll_eq, if_pos busy]

theorem waitPoll_of_idle {s : State} (idle : s.busy = false) (rest : List HostAction) :
    waitPoll s rest = { s with
      replies := s.replies ++ [.port .status (statusVisible s.status)], script := rest } := by
  rw [waitPoll_eq, if_neg (by simp [idle])]

/-- Settles O15: the host's turn is one poll. -/
theorem waitEndsExactlyWhenIdle : Obligations.WaitEndsExactlyWhenIdle := by
  intro s rest hm hs
  refine ⟨_, (step_host hm hs).trans (congrArg Host.Outcome.next (waitPoll_eq _ rest)), ?_⟩
  exact ⟨rfl, rfl, rfl, rfl, rfl, rfl⟩

/-! ## Runs of some number of steps -/

/-- Some number of steps leads from `s` to `t`. -/
def RunsTo (s t : State) : Prop := ∃ n, run n s = .next t

theorem RunsTo.refl (s : State) : RunsTo s s := ⟨0, rfl⟩

theorem RunsTo.trans {s t u : State} (hst : RunsTo s t) (htu : RunsTo t u) : RunsTo s u := by
  obtain ⟨m, hm⟩ := hst
  obtain ⟨n, hn⟩ := htu
  exact ⟨m + n, (run_add hm).trans hn⟩

theorem RunsTo.of_step {s t : State} (h : step s = .next t) : RunsTo s t := ⟨1, (run_one s).trans h⟩

/-- A host turn that carries out the host's next action. -/
theorem RunsTo.of_hostAction {s t : State} {act : HostAction} {rest : List HostAction} (hm : nextMover s = .host)
    (hs : s.script = act :: rest) (h : hostAction act rest { s with turns := s.turns.tail } = .next t) : RunsTo s t :=
  .of_step ((step_host hm hs).trans h)

/-- An engine turn that completes the command of a busy block. -/
theorem RunsTo.of_complete {s : State} (busy : s.busy = true) (hm : nextMover s = .engine) :
    RunsTo s (State.complete { s with turns := s.turns.tail } (outcomeOfWord s.bounds s.cmd s.a s.b s.m)) :=
  .of_step ((step_engine busy hm).trans (engineComplete_eq _))

/-- A turn taken off leaves a list without a reset one without a reset. -/
theorem reset_notMem_tail {ts : List Turn} (hr : .reset ∉ ts) : .reset ∉ ts.tail :=
  fun h => hr (List.mem_of_mem_tail h)

/-- On an idle block the host's next action is carried out after the engine's turns before it, which pass
(20_memory.md R52). -/
theorem idle_host_acts {s : State} {act : HostAction} {rest : List HostAction} (idle : s.busy = false)
    (hs : s.script = act :: rest) (hr : .reset ∉ s.turns) :
    ∃ ts, .reset ∉ ts ∧ ∀ t, hostAction act rest { s with turns := ts } = .next t → RunsTo s t := by
  induction hts : s.turns generalizing s with
  | nil => exact ⟨_, reset_notMem_tail hr, fun t => .of_hostAction (by simp [nextMover, hts, idle]) hs⟩
  | cons turn turns ih =>
    cases turn with
    | host => exact ⟨_, reset_notMem_tail hr, fun t => .of_hostAction (by simp [nextMover, hts]) hs⟩
    | reset => simp [hts] at hr
    | engine =>
      have pass := RunsTo.of_step (step_passes (.inl ⟨by simp [nextMover, hts], idle⟩))
      obtain ⟨ts, hr', acts⟩ :=
        ih (s := { s with turns := s.turns.tail }) idle hs (reset_notMem_tail hr) (by simp [hts])
      exact ⟨ts, hr', fun t ht => pass.trans (acts t ht)⟩

/-! ## The operands of a call -/

/-- A write of one of the three operand registers (10_state.md R11). -/
inductive OperandWrite : HostAction → Prop where
  | a (v : Word) : OperandWrite (.wr .a v)
  | b (v : Word) : OperandWrite (.wr .b v)
  | m (v : Word) : OperandWrite (.wr .m v)

/-- The register file with an operand write put in; any other action leaves it. -/
def Regs.load (x : Regs) : HostAction → Regs
  | .wr .a v => { x with a := v }
  | .wr .b v => { x with b := v }
  | .wr .m v => { x with m := v }
  | _ => x

/-- The register file with the operands of a call put in, in the order of its expansion (30_encoding.md R68). -/
def Regs.loadAll (x : Regs) (c : Call) : Regs := c.loads.foldl Regs.load x

theorem operandWrite_of_mem_loads (c : Call) : ∀ act ∈ c.loads, OperandWrite act := by
  cases c <;> simp [Call.loads, OperandWrite.a, OperandWrite.b, OperandWrite.m]

@[simp] theorem Regs.loadAll_status (x : Regs) (c : Call) : (x.loadAll c).status = x.status := by cases c <;> rfl
@[simp] theorem Regs.loadAll_r0 (x : Regs) (c : Call) : (x.loadAll c).r0 = x.r0 := by cases c <;> rfl
@[simp] theorem Regs.loadAll_r1 (x : Regs) (c : Call) : (x.loadAll c).r1 = x.r1 := by cases c <;> rfl
@[simp] theorem Regs.loadAll_r2 (x : Regs) (c : Call) : (x.loadAll c).r2 = x.r2 := by cases c <;> rfl

/-- On the operands a call loads, the word it issues has the call's outcome (30_encoding.md R68). -/
theorem outcomeOfWord_loadAll (bounds : OpenBounds) (c : Call) (x : Regs) :
    outcomeOfWord bounds (encode c.instr) (x.loadAll c).a (x.loadAll c).b (x.loadAll c).m = callOutcome bounds c := by
  rw [outcomeOfWord, decode_encode]
  cases c <;> rfl

/-- On an idle block an operand write loads its register (10_state.md R30). -/
theorem hostAction_operandWrite {act : HostAction} {s : State} (h : OperandWrite act) (idle : s.busy = false)
    (rest : List HostAction) :
    hostAction act rest s = .next { s with toRegs := s.toRegs.load act, script := rest } := by
  cases h <;> exact congrArg Host.Outcome.next (State.hostWrite_idle { s with script := rest } _ _ idle)

/-! ## The parts of a call, each continuing the run -/

/-- A later state of the same block: other registers and other surroundings, the witness bounds and the bus map kept. -/
def State.later (s : State) (x : Regs) (script : List HostAction) (turns : List Turn) (replies : List Reply) : State :=
  { s with toRegs := x, script := script, turns := turns, replies := replies }

theorem State.complete_later (s : State) (x : Regs) (script : List HostAction) (turns : List Turn)
    (replies : List Reply) (o : CmdOutcome) :
    (s.later x script turns replies).complete o =
      s.later (State.complete { s with toRegs := x } o).toRegs script turns replies := by
  cases o <;> rfl

/-- A run from `s` reaches the registers `x` with `script` still to do and `replies` read, no reset being listed after
it. -/
def Reaches (s : State) (x : Regs) (script : List HostAction) (replies : List Reply) : Prop :=
  ∃ ts, .reset ∉ ts ∧ RunsTo s (s.later x script ts replies)

theorem Reaches.refl {s : State} (hr : .reset ∉ s.turns) : Reaches s s.toRegs s.script s.replies :=
  ⟨s.turns, hr, .refl s⟩

section
variable {s : State} {x : Regs} {rest : List HostAction} {replies : List Reply}

/-- On an idle block the run goes on with the host's next action. -/
theorem Reaches.idle_act {act : HostAction} {x' : Regs} {script' : List HostAction} {replies' : List Reply}
    (h : Reaches s x (act :: rest) replies) (idle : statusBusy x.status = false)
    (acts : ∀ ts, hostAction act rest (s.later x (act :: rest) ts replies) = .next (s.later x' script' ts replies')) :
    Reaches s x' script' replies' := by
  obtain ⟨ts, hr, run⟩ := h
  obtain ⟨ts', hr', acted⟩ := idle_host_acts (s := s.later x (act :: rest) ts replies) idle rfl hr
  exact ⟨ts', hr', run.trans (acted _ (acts ts'))⟩

/-- Operand writes load the registers of an idle block one after another. -/
theorem Reaches.operandWrites {acts : List HostAction} (h : Reaches s x (acts ++ rest) replies)
    (idle : statusBusy x.status = false) (hw : ∀ act ∈ acts, OperandWrite act) :
    Reaches s (acts.foldl Regs.load x) rest replies := by
  induction acts generalizing x with
  | nil => exact h
  | cons act acts ih =>
    have write := hw act List.mem_cons_self
    have loaded : Reaches s (x.load act) (acts ++ rest) replies :=
      h.idle_act idle fun ts => hostAction_operandWrite (s := s.later x _ ts replies) write idle _
    exact ih loaded (by cases write <;> exact idle) fun act' ha => hw act' (List.mem_cons_of_mem act ha)

/-- `CMD i` on an idle block accepts the word of `i` (10_state.md R31). -/
theorem Reaches.issue {i : Instr} (h : Reaches s x (issue i :: rest) replies) (idle : statusBusy x.status = false) :
    Reaches s (State.accept { s with toRegs := x } (encode i)).toRegs rest replies :=
  h.idle_act idle fun _ => congrArg Host.Outcome.next (State.hostWrite_idle _ .cmd _ idle)

/-- On a busy block the run goes on with the completion when the engine moves next (10_state.md R33). -/
theorem Reaches.of_engine_next {turns : List Turn} {script : List HostAction}
    (run : RunsTo s (s.later x script turns replies)) (hr : .reset ∉ turns) (busy : statusBusy x.status = true)
    (hm : nextMover (s.later x script turns replies) = .engine) :
    Reaches s (State.complete { s with toRegs := x } (outcomeOfWord s.bounds x.cmd x.a x.b x.m)).toRegs
      script replies := by
  refine ⟨turns.tail, reset_notMem_tail hr, run.trans ?_⟩
  rw [← s.complete_later]
  exact .of_complete busy hm

/-- A host in `WAIT` polls a busy block until the engine completes the command (70_reset_and_hazards.md R197). -/
theorem Reaches.wait_until_complete (h : Reaches s x (.wait :: rest) replies) (busy : statusBusy x.status = true) :
    ∃ polls : List Word, (∀ v ∈ polls, statusBusy v = true) ∧
      Reaches s (State.complete { s with toRegs := x } (outcomeOfWord s.bounds x.cmd x.a x.b x.m)).toRegs
        (.wait :: rest) (replies ++ polls.map fun v => .port .status v) := by
  obtain ⟨turns, hr, run⟩ := h
  induction turns generalizing replies with
  | nil => exact ⟨[], by simp, by simpa using Reaches.of_engine_next run hr busy (if_pos busy)⟩
  | cons turn turns ih =>
    cases turn with
    | engine => exact ⟨[], by simp, by simpa using Reaches.of_engine_next run hr busy rfl⟩
    | reset => simp at hr
    | host =>
      have poll := waitPoll_of_busy (s := s.later x (.wait :: rest) turns replies) busy rest
      have polled := run.trans (.of_hostAction rfl rfl (congrArg Host.Outcome.next poll))
      obtain ⟨polls, hpolls, completed⟩ := ih (reset_notMem_tail hr) polled
      refine ⟨statusVisible x.status :: polls, by simpa using ⟨busy, hpolls⟩, ?_⟩
      rw [List.map_cons, List.append_cons]
      exact completed

/-- `WAIT` on an idle block is one poll (30_encoding.md R68). -/
theorem Reaches.wait_of_idle (h : Reaches s x (.wait :: rest) replies) (idle : statusBusy x.status = false) :
    Reaches s x rest (replies ++ [.port .status (statusVisible x.status)]) :=
  h.idle_act idle fun _ => congrArg Host.Outcome.next (waitPoll_of_idle (s := s.later x _ _ _) idle rest)

/-- Reads on an idle block record the registers one after another (10_state.md R34). -/
theorem Reaches.reads {regs : List Reg} (h : Reaches s x (regs.map .rd ++ rest) replies)
    (idle : statusBusy x.status = false) :
    Reaches s x rest (replies ++ regs.map fun r => .port r (State.readReg { s with toRegs := x } r)) := by
  induction regs generalizing replies with
  | nil => simpa using h
  | cons r regs ih =>
    rw [List.map_cons, List.append_cons]
    exact ih (h.idle_act idle fun _ => rfl)

end

/-- The block with a call's operands loaded and its command word accepted. -/
def State.called (s : State) (c : Call) : State := State.accept { s with toRegs := s.toRegs.loadAll c } (encode c.instr)

/-- Settles O28: the run loads the operands, issues the command, waits for its completion and reads the results; the
completion has the outcome of the loaded operands and the reads what it left. -/
theorem callReturnsItsOutcome : Obligations.CallReturnsItsOutcome := by
  intro c s rest idle hs hr
  have script : s.script = c.loads ++ issue c.instr :: .wait :: (c.results.map .rd ++ rest) := by
    simp [hs, Call.expand]
  have start : Reaches s s.toRegs _ s.replies := script ▸ Reaches.refl hr
  have loaded : Reaches s (s.toRegs.loadAll c) _ s.replies := start.operandWrites idle (operandWrite_of_mem_loads c)
  have accepted : Reaches s (s.called c).toRegs _ s.replies := loaded.issue (by simpa [State.busy] using idle)
  obtain ⟨polls, hpolls, completed⟩ := accepted.wait_until_complete (State.accept_busy _ _)
  have outcome : outcomeOfWord s.bounds (s.called c).cmd (s.called c).a (s.called c).b (s.called c).m =
    callOutcome s.bounds c := outcomeOfWord_loadAll s.bounds c s.toRegs
  rw [outcome] at completed
  have idle' := (s.called c).complete_busy (callOutcome s.bounds c)
  obtain ⟨ts, _, n, read⟩ := (completed.wait_of_idle idle').reads idle'
  have ovr : (s.called c).ovr = s.ovr := by simp [State.called, State.ovr]
  have results : SameResults s (s.called c) := by simp [SameResults, State.called]
  exact ⟨n, _, read, rfl, idle', (s.called c).complete_done _, ((s.called c).complete_ovr _).trans ovr,
    (s.called c).complete_cmd _, (reports_complete _ (s.called c)).of_sameResults results, polls, hpolls, rfl⟩

end Sys2Proof.Machine

namespace Sys2Proof.Machine

/-! SUPPORT and the statements of 40_addsub.md: the outcomes of the commands with a modulus, the range laws, and the
evaluations of the sum and the difference in 64-bit values. -/

/-! ## The outcome when the modulus is not zero -/

/-- A command with an outcome of one value answers a state with that value in `R0` and `ERR = 0` (10_state.md R33). -/
theorem exec_of_ok1 {i : Instr} {s : State} {v : Word} (h : outcomeOf s.bounds i s.a s.b s.m = .ok1 v) :
    ∃ t, exec i s = .next t ∧ t.r0 = v ∧ Finished s t 0 :=
  ⟨s.complete (.ok1 v), by rw [exec_eq_complete, h], by simp [Finished]⟩

theorem word_ne_zero_of_pos {m : Word} (h : 1 ≤ m.toNat) : m ≠ 0#64 :=
  fun h0 => absurd ((word_eq_zero_iff m).1 h0) (by omega)

theorem addmodOutcome_of_pos (a b : Word) {m : Word} (h : 1 ≤ m.toNat) :
    addmodOutcome a b m = .ok1 (toWord (addmod a.toNat b.toNat m.toNat)) := if_neg (word_ne_zero_of_pos h)

theorem submodOutcome_of_pos (a b : Word) {m : Word} (h : 1 ≤ m.toNat) :
    submodOutcome a b m = .ok1 (toWord (submod a.toNat b.toNat m.toNat)) := if_neg (word_ne_zero_of_pos h)

theorem mulmodOutcome_of_pos (a b : Word) {m : Word} (h : 1 ≤ m.toNat) :
    mulmodOutcome a b m = .ok1 (toWord (mulmod a.toNat b.toNat m.toNat)) := if_neg (word_ne_zero_of_pos h)

theorem powmodOutcome_of_pos (a e : Word) {m : Word} (h : 1 ≤ m.toNat) :
    powmodOutcome a e m = .ok1 (toWord (powmod a.toNat e.toNat m.toNat)) := if_neg (word_ne_zero_of_pos h)

theorem modinvOutcome_of_ok {a m : Word} {x : Nat} (h : 1 ≤ m.toNat) (hx : modinv a.toNat m.toNat = .ok x) :
    modinvOutcome a m = .ok1 (toWord x) := by
  simp [modinvOutcome, word_ne_zero_of_pos h, hx]

theorem modinvOutcome_of_error {a m : Word} {k : ErrKind} (h : 1 ≤ m.toNat)
    (hk : modinv a.toNat m.toNat = .error k) : modinvOutcome a m = .err k := by
  simp [modinvOutcome, word_ne_zero_of_pos h, hk]

/-! ## Residues lie below the modulus -/

theorem addmod_lt (a b : Nat) {m : Nat} (h : 1 ≤ m) : addmod a b m < m := Nat.mod_lt _ h

theorem mulmod_lt (a b : Nat) {m : Nat} (h : 1 ≤ m) : mulmod a b m < m := Nat.mod_lt _ h

/-- The difference computed is the residue of the integer difference, no sign lost (40_addsub.md R83). -/
theorem submod_cast (a b : Nat) {m : Nat} (h : 1 ≤ m) : (submod a b m : Int) = ((a : Int) - b) % m :=
  Int.toNat_of_nonneg (Int.emod_nonneg _ (by omega))

theorem submod_lt (a b : Nat) {m : Nat} (h : 1 ≤ m) : submod a b m < m := by
  have lt : (submod a b m : Int) < m := submod_cast a b h ▸ Int.emod_lt_of_pos _ (by omega)
  exact_mod_cast lt

theorem dvd_sub_submod (a b : Nat) {m : Nat} (h : 1 ≤ m) : (m : Int) ∣ (a : Int) - b - submod a b m :=
  submod_cast a b h ▸ Int.dvd_self_sub_emod

/-- Square-and-multiply keeps its accumulator below the modulus. -/
theorem sqmulLoop_lt (fuel : Nat) {r m : Nat} (base k : Nat) (hr : r < m) : sqmulLoop fuel r base k m < m := by
  induction fuel generalizing r base k with
  | zero => exact hr
  | succ fuel ih =>
    have hr' : (if k % 2 = 1 then mulmod r base m else r) < m := by
      split
      · exact mulmod_lt r base (by omega)
      · exact hr
    simp only [sqmulLoop]
    split
    · exact hr'
    · exact ih _ _ hr'

/-- For `m ≥ 2` each of the shortcuts of 42_powmod.md R100 answers a residue, and so does the loop (R107). -/
theorem powmod_lt (a e : Nat) {m : Nat} (h : 2 ≤ m) : powmod a e m < m := by
  simp only [powmod]
  split
  · omega
  split
  · omega
  split
  · split <;> omega
  · exact sqmulLoop_lt 64 _ _ h

/-- An inverse is reduced before it is answered (43_euclid_inverse.md R119). -/
theorem modinv_lt {a m x : Nat} (h : 1 ≤ m) (hx : modinv a m = .ok x) : x < m := by
  simp only [modinv] at hx
  split at hx
  · cases hx
  · split at hx
    · cases hx
    · cases hx
      exact Nat.mod_lt _ h

/-! ## The range laws -/

/-- The outcome is an error, or its first value lies below `m`. -/
def Below (m : Word) : CmdOutcome → Prop
  | .ok1 v0 => v0.toNat < m.toNat
  | .ok3 v0 _ _ => v0.toNat < m.toNat
  | .err _ => True

theorem Below.r0_lt {o : CmdOutcome} {m : Word} (h : Below m o) {s : State} (noErr : (s.complete o).err = 0) :
    (s.complete o).r0.toNat < m.toNat := by
  cases o with
  | ok1 v0 => exact h
  | ok3 v0 v1 v2 => exact h
  | err k => exact absurd (by simpa using noErr) (errCode_ne_zero k)

theorem Below.of_ok1 {o : CmdOutcome} {n : Nat} {m : Word} (ho : o = .ok1 (toWord n)) (h : n < m.toNat) : Below m o :=
  ho ▸ (toNat_toWord_of_lt_word m h).trans_lt h

theorem modinvOutcome_below (a : Word) {m : Word} (h : 1 ≤ m.toNat) : Below m (modinvOutcome a m) := by
  cases hx : modinv a.toNat m.toNat with
  | error k => exact modinvOutcome_of_error h hx ▸ trivial
  | ok x => exact .of_ok1 (modinvOutcome_of_ok h hx) (modinv_lt h hx)

/-- The outcome of each command that has a range law lies below its modulus. -/
theorem outcomeOf_below (bounds : OpenBounds) {i : Instr} (a b : Word) {m : Word}
    (h : (1 ≤ m.toNat ∧ (i = .addmod ∨ i = .submod ∨ i = .mulmod ∨ i = .modinv)) ∨ (2 ≤ m.toNat ∧ i = .powmod)) :
    Below m (outcomeOf bounds i a b m) := by
  obtain ⟨hm, rfl | rfl | rfl | rfl⟩ | ⟨hm, rfl⟩ := h
  · exact .of_ok1 (addmodOutcome_of_pos a b hm) (addmod_lt _ _ hm)
  · exact .of_ok1 (submodOutcome_of_pos a b hm) (submod_lt _ _ hm)
  · exact .of_ok1 (mulmodOutcome_of_pos a b hm) (mulmod_lt _ _ hm)
  · exact modinvOutcome_below a hm
  · exact .of_ok1 (powmodOutcome_of_pos a b (Nat.le_of_succ_le hm)) (powmod_lt _ _ hm)

/-- Settles O53: `R0` takes the first value of an outcome that lies below the modulus. -/
theorem resultsLieBelowTheModulus : Obligations.ResultsLieBelowTheModulus := fun i s h =>
  ⟨_, exec_eq_complete i s, (outcomeOf_below s.bounds s.a s.b h).r0_lt⟩

/-! ## What ADDMOD and SUBMOD compute -/

/-- Settles O34: the reduced sum fits the 64 bits of `R0`. -/
theorem addmodResult : Obligations.AddmodResult := by
  intro s hm
  obtain ⟨t, ht, hr0, finished⟩ := exec_of_ok1 (i := .addmod) (addmodOutcome_of_pos s.a s.b hm)
  refine ⟨t, ht, ?_, finished⟩
  rw [hr0, toNat_toWord_of_lt_word s.m (addmod_lt _ _ hm), addmod]

/-- Settles O35: `R0` is the residue of the integer difference, which fits its 64 bits. -/
theorem submodResult : Obligations.SubmodResult := by
  intro s hm
  obtain ⟨t, ht, hr0, finished⟩ := exec_of_ok1 (i := .submod) (submodOutcome_of_pos s.a s.b hm)
  have value : t.r0.toNat = submod s.a.toNat s.b.toNat s.m.toNat := by
    rw [hr0, toNat_toWord_of_lt_word s.m (submod_lt _ _ hm)]
  exact ⟨t, ht, value ▸ submod_lt _ _ hm, value ▸ dvd_sub_submod _ _ hm, finished⟩

/-! ## The overflow-safe sum -/

/-- A remainder of a number not below the modulus leaves room for another remainder. -/
theorem mod_add_mod_le {n m : Nat} (k : Nat) (h : 1 ≤ m) (hn : m ≤ n) : n % m + k % m ≤ n := by
  have first : n % m ≤ n - m := Nat.mod_eq_sub_mod hn ▸ Nat.mod_le _ _
  have second : k % m < m := Nat.mod_lt k h
  omega

theorem toNat_allOnes_sub (b : Word) : (BitVec.allOnes 64 - b).toNat = maxU64 - b.toNat := by
  have le : b ≤ BitVec.allOnes 64 := BitVec.le_def.2 (Nat.le_of_lt_succ b.isLt)
  rw [BitVec.toNat_sub_of_le le]
  rfl

/-- The test for overflow holds exactly when the unbounded sum exceeds `MAX` (40_addsub.md R82). -/
theorem gt_allOnes_sub_iff (a b : Word) : a > BitVec.allOnes 64 - b ↔ maxU64 < a.toNat + b.toNat := by
  rw [gt_iff_lt, BitVec.lt_def, toNat_allOnes_sub]
  have := b.isLt
  simp only [maxU64]
  omega

/-- A sum of two 64-bit values that does not overflow, reduced by one subtraction. -/
theorem toNat_add_reduced {r x m : Word} (h : r.toNat + x.toNat ≤ maxU64) :
    (if r + x ≥ m then r + x - m else r + x).toNat =
      if m.toNat ≤ r.toNat + x.toNat then r.toNat + x.toNat - m.toNat else r.toNat + x.toNat := by
  have sum : (r + x).toNat = r.toNat + x.toNat := BitVec.toNat_add_of_lt (by simp only [maxU64] at h; omega)
  simp only [ge_iff_le, BitVec.le_def, sum]
  split
  case isTrue hm => rw [BitVec.toNat_sub_of_le (BitVec.le_def.2 (sum ▸ hm)), sum]
  case isFalse => exact sum

/-- Settles O54: in the overflow branch `a + b = MAX + (a − (MAX − b))`, and the remainders of the two parts add to at
most `MAX` and are reduced by at most one subtraction. -/
theorem overflowSafeAddEqualsAddmod : Obligations.OverflowSafeAddEqualsAddmod := by
  intro a b m hm
  have bound (k : Nat) : maxU64 % m.toNat + k % m.toNat ≤ maxU64 :=
    mod_add_mod_le k hm (Nat.le_of_lt_succ m.isLt)
  refine ⟨?_, fun _ => bound _⟩
  simp only [addmodSafe]
  split
  case isTrue exceeds =>
    have parts : a.toNat + b.toNat = maxU64 + (a.toNat - (maxU64 - b.toNat)) := by
      have := (gt_allOnes_sub_iff a b).1 exceeds
      have := b.isLt
      simp only [maxU64] at *
      omega
    have r : (BitVec.allOnes 64 % m).toNat = maxU64 % m.toNat := BitVec.toNat_umod
    have ex : ((a - (BitVec.allOnes 64 - b)) % m).toNat = (a.toNat - (maxU64 - b.toNat)) % m.toNat := by
      rw [BitVec.toNat_umod, BitVec.toNat_sub_of_le (BitVec.le_of_lt exceeds), toNat_allOnes_sub]
    rw [toNat_add_reduced (by rw [r, ex]; exact bound _), r, ex, parts, Nat.add_mod_eq_ite]
  case isFalse fits =>
    have le : a.toNat + b.toNat ≤ maxU64 := by simpa only [gt_allOnes_sub_iff, Nat.not_lt] using fits
    rw [BitVec.toNat_umod, BitVec.toNat_add_of_lt (Nat.lt_succ_of_le le)]

/-! ## The difference by two branches -/

theorem submod_of_le {a b : Nat} (m : Nat) (h : b ≤ a) : submod a b m = (a - b) % m := by
  rw [submod, ← Int.ofNat_sub h]
  exact Int.toNat_natCast _

/-- A negative difference has the complement of the opposite difference's residue, zero kept zero (40_addsub.md R85). -/
theorem submod_of_lt {a b m : Nat} (hm : 1 ≤ m) (h : a < b) :
    submod a b m = if (b - a) % m = 0 then 0 else m - (b - a) % m := by
  have neg : (a : Int) - b = -((b - a : Nat) : Int) := by omega
  have lt := Nat.mod_lt (b - a) hm
  rw [submod, neg, Int.neg_emod]
  simp only [Int.natCast_dvd_natCast, Nat.dvd_iff_mod_eq_zero]
  split
  case isTrue => rfl
  case isFalse => omega

/-- Settles O55: each branch of the evaluation is the branch of `submod` for the sign of the difference. -/
theorem branchingSubtractEqualsSubmod : Obligations.BranchingSubtractEqualsSubmod := by
  intro a b m hm
  simp only [submodSafe]
  split
  case isTrue lt =>
    have residue : ((b - a) % m).toNat = (b.toNat - a.toNat) % m.toNat := by
      rw [BitVec.toNat_umod, BitVec.toNat_sub_of_le (BitVec.le_of_lt lt)]
    rw [submod_of_lt hm (BitVec.lt_def.1 lt), ← residue]
    by_cases zero : (b - a) % m = 0
    · simp [zero]
    · have below : (b - a) % m ≤ m := BitVec.le_def.2 (residue ▸ Nat.le_of_lt (Nat.mod_lt _ hm))
      rw [if_neg zero, if_neg (mt (word_eq_zero_iff _).2 zero), BitVec.toNat_sub_of_le below]
  case isFalse ge =>
    have le : b ≤ a := BitVec.not_lt.1 ge
    rw [submod_of_le _ (BitVec.le_def.1 le), BitVec.toNat_umod, BitVec.toNat_sub_of_le le]

end Sys2Proof.Machine

namespace Sys2Proof.Machine

/-! SUPPORT and the statements of 41_mulmod.md: the invariant of the doubling loop, and the exact product reduced. -/

/-! ## What MULMOD computes -/

/-- Settles O36: the reduced product fits the 64 bits of `R0`. -/
theorem mulmodResult : Obligations.MulmodResult := by
  intro s hm
  obtain ⟨t, ht, hr0, finished⟩ := exec_of_ok1 (i := .mulmod) (mulmodOutcome_of_pos s.a s.b hm)
  refine ⟨t, ht, ?_, finished⟩
  rw [hr0, toNat_toWord_of_lt_word s.m (mulmod_lt _ _ hm), mulmod]

/-! ## The doubling loop -/

theorem toNat_addmodSafe (a b : Word) {m : Word} (hm : 1 ≤ m.toNat) :
    (addmodSafe a b m).toNat = (a.toNat + b.toNat) % m.toNat := (overflowSafeAddEqualsAddmod a b m hm).1

/-- The conditional addition adds `run` times the lowest bit of `b` (41_mulmod.md R93). -/
theorem toNat_addmodSafe_if_odd {acc m : Word} (run b : Word) (hacc : acc.toNat < m.toNat) :
    (if b.getLsbD 0 then addmodSafe acc run m else acc).toNat =
      (acc.toNat + run.toNat * (b.toNat % 2)) % m.toNat := by
  have bit : b.getLsbD 0 = decide (b.toNat % 2 = 1) := Nat.testBit_zero b.toNat
  rw [bit]
  obtain even | odd := Nat.mod_two_eq_zero_or_one b.toNat
  · simp [even, Nat.mod_eq_of_lt hacc]
  · simp [odd, toNat_addmodSafe acc run (Nat.one_le_of_lt hacc)]

/-- One turn of the loop keeps `acc + run · b` modulo `m`, the invariant of 41_mulmod.md R93. -/
theorem double_and_add_modEq (acc run b m : Nat) :
    (acc + run * (b % 2)) % m + (run + run) % m * (b / 2) ≡ acc + run * b [MOD m] :=
  calc (acc + run * (b % 2)) % m + (run + run) % m * (b / 2)
    _ ≡ acc + run * (b % 2) + (run + run) * (b / 2) [MOD m] :=
      (Nat.mod_modEq _ m).add ((Nat.mod_modEq _ m).mul_right _)
    _ = acc + run * (b % 2 + 2 * (b / 2)) := by ring
    _ = acc + run * b := by rw [Nat.mod_add_div]

/-- With a turn for each bit of `b`, the loop ends with `b = 0`, and what it kept is then the accumulator alone. -/
theorem toNat_doublingLoop (fuel : Nat) {acc b m : Word} (run : Word) (hacc : acc.toNat < m.toNat)
    (hb : b.toNat < 2 ^ fuel) :
    (doublingLoop fuel acc run b m).toNat = (acc.toNat + run.toNat * b.toNat) % m.toNat := by
  have hm : 1 ≤ m.toNat := Nat.one_le_of_lt hacc
  induction fuel generalizing acc run b with
  | zero =>
    have zero : b.toNat = 0 := Nat.lt_one_iff.1 hb
    simp [doublingLoop, zero, Nat.mod_eq_of_lt hacc]
  | succ fuel ih =>
    by_cases zero : b = 0
    · simp [doublingLoop, zero, Nat.mod_eq_of_lt hacc]
    have half : (b >>> 1).toNat = b.toNat / 2 := by rw [BitVec.toNat_ushiftRight, Nat.shiftRight_one]
    have acc_value := toNat_addmodSafe_if_odd run b hacc
    rw [doublingLoop, if_neg zero, ih _ (acc_value ▸ Nat.mod_lt _ hm) (by omega), acc_value,
      toNat_addmodSafe run run hm, half]
    exact double_and_add_modEq _ _ _ _

/-- Sixty-four turns from a zero accumulator multiply (41_mulmod.md R93). -/
theorem toNat_doublingLoop_product (a b : Word) {m : Word} (hm : 1 ≤ m.toNat) :
    (doublingLoop 64 0 a b m).toNat = a.toNat * b.toNat % m.toNat := by
  have loop := toNat_doublingLoop 64 (acc := 0#64) a hm b.isLt
  rwa [BitVec.toNat_zero, Nat.zero_add] at loop

/-- Settles O56: reducing first keeps the residue of the product, the early answers are products that are 0 modulo `m`,
and the swap does not change the product that the loop computes. -/
theorem doublingMultiplyEqualsMulmod : Obligations.DoublingMultiplyEqualsMulmod := by
  intro a b m hm
  rw [Nat.mul_mod, ← BitVec.toNat_umod, ← BitVec.toNat_umod]
  simp only [mulmodDoubling]
  split
  case isTrue early =>
    obtain zero | zero | one := early
    · simp [zero]
    · simp [zero]
    · simp [one]
  case isFalse =>
    split
    case isTrue => rw [toNat_doublingLoop_product _ _ hm, Nat.mul_comm]
    case isFalse => exact toNat_doublingLoop_product _ _ hm

end Sys2Proof.Machine

namespace Sys2Proof.Machine

/-! SUPPORT and the statements of 42_powmod.md: the invariant of the square-and-multiply loop, the shortcuts as powers, and
the closed form. -/

/-! ## The square-and-multiply loop -/

/-- The conditional multiply-in multiplies by `base` to the lowest bit of `k` (42_powmod.md R102). -/
theorem mulmod_if_odd {r m : Nat} (base k : Nat) (hr : r < m) :
    (if k % 2 = 1 then mulmod r base m else r) = r * base ^ (k % 2) % m := by
  obtain even | odd := Nat.mod_two_eq_zero_or_one k
  · simp [even, Nat.mod_eq_of_lt hr]
  · simp [odd, mulmod]

/-- One turn of the loop keeps `r · base ^ k` modulo `m`, the invariant of 42_powmod.md R102. -/
theorem square_and_multiply_modEq (r base k m : Nat) :
    r * base ^ (k % 2) % m * (base * base % m) ^ (k / 2) ≡ r * base ^ k [MOD m] :=
  calc r * base ^ (k % 2) % m * (base * base % m) ^ (k / 2)
    _ ≡ r * base ^ (k % 2) * (base * base) ^ (k / 2) [MOD m] :=
      (Nat.mod_modEq _ m).mul ((Nat.mod_modEq _ m).pow _)
    _ = r * base ^ (k % 2 + 2 * (k / 2)) := by rw [← sq, ← pow_mul, pow_add, mul_assoc]
    _ = r * base ^ k := by rw [Nat.mod_add_div]

/-- With a turn for each bit of the exponent `k`, the loop multiplies its accumulator by `base ^ k` modulo `m`. -/
theorem sqmulLoop_eq (fuel : Nat) {r k m : Nat} (base : Nat) (hr : r < m) (hk : k < 2 ^ fuel) :
    sqmulLoop fuel r base k m = r * base ^ k % m := by
  induction fuel generalizing r base k with
  | zero =>
    have zero : k = 0 := Nat.lt_one_iff.1 hk
    simp [sqmulLoop, zero, Nat.mod_eq_of_lt hr]
  | succ fuel ih =>
    simp only [sqmulLoop, mulmod_if_odd base k hr]
    split
    case isTrue last =>
      have bit : k % 2 = k := by omega
      rw [bit]
    case isFalse =>
      rw [ih _ (Nat.mod_lt _ (Nat.zero_lt_of_lt hr)) (by omega), mulmod]
      exact square_and_multiply_modEq r base k m

/-- Settles O57: an exponent of 64 bits has a turn of the loop for each of its bits, and the accumulator starts at 1. -/
theorem squareAndMultiplyIsExact : Obligations.SquareAndMultiplyIsExact := by
  intro a e m he hm
  have loop := sqmulLoop_eq 64 a (r := 1) hm (Nat.lt_succ_of_le he)
  rwa [Nat.one_mul] at loop

/-! ## The closed form -/

/-- `m − 1` is `−1` modulo `m`: its square is 1. -/
theorem sub_one_mul_self_mod {m : Nat} (hm : 2 ≤ m) : (m - 1) * (m - 1) % m = 1 := by
  obtain ⟨n, rfl⟩ := Nat.exists_eq_add_of_le' hm
  have square : (n + 1) * (n + 1) = 1 + (n + 2) * n := by ring
  rw [Nat.add_succ_sub_one, square, Nat.add_mul_mod_self_left, Nat.mod_eq_of_lt hm]

/-- The parity of the exponent decides a power of `m − 1` (shortcut 3 of 42_powmod.md R100). -/
theorem sub_one_pow_mod (e : Nat) {m : Nat} (hm : 2 ≤ m) :
    (m - 1) ^ e % m = if e % 2 = 1 then m - 1 else 1 := by
  have lowest_bit : (m - 1) ^ e % m = (m - 1) ^ (e % 2) % m := by
    have turn := square_and_multiply_modEq 1 (m - 1) e m
    rw [sub_one_mul_self_mod hm, one_pow, Nat.mul_one, Nat.one_mul, Nat.one_mul] at turn
    exact turn.symm.trans (Nat.mod_modEq _ m)
  rw [lowest_bit]
  split
  case isTrue odd => rw [odd, pow_one, Nat.mod_eq_of_lt (Nat.sub_one_lt_of_lt hm)]
  case isFalse even => rw [Nat.mod_two_ne_one.1 even, pow_zero, Nat.mod_eq_of_lt hm]

/-- Each shortcut of 42_powmod.md R100 is a power of the reduced base, and so is the general case (R103). -/
theorem powmod_eq (a e : Nat) {m : Nat} (hm : 2 ≤ m) (hmax : m ≤ maxU64) :
    powmod a e m = (a % m) ^ (e % m) % m := by
  simp only [powmod]
  split
  case isTrue one => rw [one, one_pow, Nat.mod_eq_of_lt hm]
  split
  case isTrue zero => rw [zero, pow_zero, Nat.mod_eq_of_lt hm]
  split
  case isTrue minusOne => rw [minusOne, sub_one_pow_mod _ hm]
  case isFalse =>
    have fits : e % m ≤ maxU64 := (Nat.mod_lt e (by omega)).le.trans hmax
    exact squareAndMultiplyIsExact _ _ m fits hm

/-- With `m = 1` the reduced exponent is 0, and shortcut 2 answers 1 (42_powmod.md R105). -/
theorem powmod_one (a e : Nat) : powmod a e 1 = 1 := by simp [powmod, Nat.mod_one]

/-- POWMOD's value fits the 64 bits of `R0`: it is below `m`, or it is the 1 of `m = 1`. -/
theorem toNat_toWord_powmod (a e : Nat) {m : Word} (hm : 1 ≤ m.toNat) :
    (toWord (powmod a e m.toNat)).toNat = powmod a e m.toNat := by
  obtain one | two := Nat.eq_or_lt_of_le hm
  · rw [← one, powmod_one]
    rfl
  · exact toNat_toWord_of_lt_word m (powmod_lt a e two)

/-- Settles O37: `R0` takes `powmod`'s value; an exponent below the modulus is not reduced, and reducing the base keeps the
residue of the power. -/
theorem powmodResult : Obligations.PowmodResult := by
  intro s hm
  obtain ⟨t, ht, hr0, finished⟩ := exec_of_ok1 (i := .powmod) (powmodOutcome_of_pos s.a s.b hm)
  have value : t.r0.toNat = powmod s.a.toNat s.b.toNat s.m.toNat := by rw [hr0, toNat_toWord_powmod _ _ hm]
  have closed (two : 2 ≤ s.m.toNat) := value.trans (powmod_eq _ _ two (Nat.le_of_lt_succ s.m.isLt))
  refine ⟨t, ht, finished, closed, fun two below => ?_, fun one => ?_⟩
  · rw [closed two, Nat.mod_eq_of_lt below, ← Nat.pow_mod]
  · rw [value, one, powmod_one]

end Sys2Proof.Machine

namespace Sys2Proof.Machine

/-! SUPPORT and the statements of 43_euclid_inverse.md: the recursion of `egcd`, the Bézout triple it keeps modulo `m`,
and the inverse read off that triple. -/

/-! ## What a command with another outcome than one value answers -/

/-- A command with an outcome of three values answers a state with them in the results and `ERR = 0` (10_state.md
R33). -/
theorem exec_of_ok3 {i : Instr} {s : State} {v0 v1 v2 : Word}
    (h : outcomeOf s.bounds i s.a s.b s.m = .ok3 v0 v1 v2) :
    ∃ t, exec i s = .next t ∧ t.r0 = v0 ∧ t.r1 = v1 ∧ t.r2 = v2 ∧ Finished s t 0 :=
  ⟨s.complete (.ok3 v0 v1 v2), by rw [exec_eq_complete, h], by simp [Finished]⟩

/-- A command that ends with an error answers a state with the results kept and the error's code (10_state.md R33). -/
theorem exec_of_err {i : Instr} {s : State} {k : ErrKind} (h : outcomeOf s.bounds i s.a s.b s.m = .err k) :
    ∃ t, exec i s = .next t ∧ SameResults s t ∧ Finished s t (errCode k) :=
  ⟨s.complete (.err k), by rw [exec_eq_complete, h], by simp [SameResults], by simp [Finished]⟩

theorem egcdOutcome_of_ok {a b m : Word} {g x y : Nat} (h : egcd a.toNat b.toNat m.toNat = .ok (g, x, y)) :
    egcdOutcome a b m = .ok3 (toWord g) (toWord x) (toWord y) := by simp [egcdOutcome, h]

theorem egcdOutcome_of_error {a b m : Word} {k : ErrKind} (h : egcd a.toNat b.toNat m.toNat = .error k) :
    egcdOutcome a b m = .err k := by simp [egcdOutcome, h]

/-! ## The recursion -/

theorem egcd_zero (b m : Nat) : egcd 0 b m = .ok (b, 0, 1) := rfl

/-- How a level of the recursion with quotient `q` makes its triple of the one returned to it (43_euclid_inverse.md
R110). -/
def egcdReturn (q m : Nat) : Nat × Nat × Nat → Except ErrKind (Nat × Nat × Nat)
  | (g, x1, y1) => if m = 0 then .error .divideByZero else .ok (g, submod y1 (mulmod q x1 m) m, x1)

/-- The recursive equation, free of the fuel (43_euclid_inverse.md R110). -/
theorem egcd_of_ne_zero {a : Nat} (b m : Nat) (ha : a ≠ 0) :
    egcd a b m = (egcd (b % a) a m).bind (egcdReturn (b / a) m) := by
  obtain ⟨n, rfl⟩ := Nat.exists_eq_succ_of_ne_zero ha
  have enough : b % n.succ ≤ n := Nat.le_of_lt_succ (Nat.mod_lt b n.succ_pos)
  rw [egcd, egcd, ← egcdLoop_fuel n _ _ _ enough, egcdLoop, if_neg ha]
  cases egcdLoop n (b % n.succ) n.succ m <;> rfl

/-- A level whose inner call answers a triple answers the triple made of it (43_euclid_inverse.md R110). -/
theorem egcd_of_inner_ok {a b m g x1 y1 : Nat} (ha : a ≠ 0) (hm : m ≠ 0) (inner : egcd (b % a) a m = .ok (g, x1, y1)) :
    egcd a b m = .ok (g, submod y1 (mulmod (b / a) x1 m) m, x1) := by
  rw [egcd_of_ne_zero b m ha, inner]
  exact if_neg hm

/-- With a zero modulus every level but the base case raises DivideByZero, itself or by passing it on
(43_euclid_inverse.md R113). -/
theorem egcd_zero_modulus {a : Nat} (b : Nat) (ha : a ≠ 0) : egcd a b 0 = .error .divideByZero := by
  rw [egcd_of_ne_zero b 0 ha]
  cases inner : egcd (b % a) a 0 with
  | error k => rw [egcdLoop_error inner]; rfl
  | ok triple => rfl

/-! ## The Bézout triple -/

/-- What `egcd` keeps on every level: the gcd, a Bézout congruence modulo `m`, and residues, the 1 of the base case
being one for `m ≥ 2` only (43_euclid_inverse.md R111). -/
structure BezoutTriple (a b m g x y : Nat) : Prop where
  gcd : g = Nat.gcd a b
  bezout : a * x + b * y ≡ g [MOD m]
  x_lt : x < m
  y_le : y ≤ m
  y_lt : a ≠ 0 → y < m

theorem BezoutTriple.base (b : Nat) {m : Nat} (hm : 1 ≤ m) : BezoutTriple 0 b m b 0 1 where
  gcd := (Nat.gcd_zero_left b).symm
  bezout := by simp [Nat.ModEq.refl]
  x_lt := hm
  y_le := hm
  y_lt := fun h => absurd rfl h

/-- A difference modulo `m` and its subtrahend add up to the minuend. -/
theorem submod_add_modEq (y z : Nat) {m : Nat} (hm : 1 ≤ m) : submod y z m + z ≡ y [MOD m] := by
  rw [← Int.natCast_modEq_iff, Nat.cast_add, submod_cast y z hm]
  simpa using (Int.mod_modEq ((y : Int) - z) m).add_right (z : Int)

/-- A Bézout pair for `(b mod a, a)` gives one for `(a, b)`, because `b = b mod a + a · (b div a)`. -/
theorem BezoutTriple.step {a b m g x1 y1 : Nat} (hm : 1 ≤ m) (h : BezoutTriple (b % a) a m g x1 y1) :
    BezoutTriple a b m g (submod y1 (mulmod (b / a) x1 m) m) x1 where
  gcd := h.gcd.trans (Nat.gcd_rec a b).symm
  bezout :=
    calc a * submod y1 (mulmod (b / a) x1 m) m + b * x1
      _ = a * submod y1 (mulmod (b / a) x1 m) m + (b % a + a * (b / a)) * x1 := by rw [Nat.mod_add_div]
      _ = b % a * x1 + a * (submod y1 (mulmod (b / a) x1 m) m + b / a * x1) := by ring
      _ ≡ b % a * x1 + a * (submod y1 (mulmod (b / a) x1 m) m + mulmod (b / a) x1 m) [MOD m] :=
        (((Nat.mod_modEq _ m).symm.add_left _).mul_left a).add_left _
      _ ≡ b % a * x1 + a * y1 [MOD m] := ((submod_add_modEq _ _ hm).mul_left a).add_left _
      _ ≡ g [MOD m] := h.bezout
  x_lt := submod_lt _ _ hm
  y_le := h.x_lt.le
  y_lt := fun _ => h.x_lt

/-- With a modulus `egcd` raises no error and answers a Bézout triple (43_euclid_inverse.md R111). -/
theorem egcd_ok (a b : Nat) {m : Nat} (hm : 1 ≤ m) :
    ∃ g x y, egcd a b m = .ok (g, x, y) ∧ BezoutTriple a b m g x y := by
  induction a, b using Nat.gcd.induction with
  | H0 b => exact ⟨b, 0, 1, egcd_zero b m, .base b hm⟩
  | H1 a b ha ih =>
    obtain ⟨g, x1, y1, inner, triple⟩ := ih
    exact ⟨g, _, x1, egcd_of_inner_ok ha.ne' (Nat.ne_zero_of_lt hm) inner, triple.step hm⟩

/-- Settles O39: with a modulus the inner call always answers a triple, and the level makes its own of it. -/
theorem egcdRecursion : Obligations.EgcdRecursion := by
  refine ⟨egcd_zero, fun a b m ha hm => ?_, fun a b ha => egcd_zero_modulus b ha⟩
  obtain ⟨g, x1, y1, inner, _⟩ := egcd_ok (b % a) a (Nat.one_le_iff_ne_zero.2 hm)
  exact ⟨g, x1, y1, inner, egcd_of_inner_ok ha hm inner⟩

/-! ## What EGCD answers -/

theorem gcd_toNat_lt (a b : Word) : Nat.gcd a.toNat b.toNat < 2 ^ 64 := by
  obtain zero | pos := Nat.eq_zero_or_pos a.toNat
  · rw [zero, Nat.gcd_zero_left]
    exact b.isLt
  · exact (Nat.gcd_le_left _ pos).trans_lt a.isLt

/-- EGCD's base case, whatever the modulus (43_euclid_inverse.md R112). -/
theorem egcdOutcome_of_zero {a : Word} (b m : Word) (ha : a = 0) : egcdOutcome a b m = .ok3 b 0 1 := by
  have base : egcd a.toNat b.toNat m.toNat = .ok (b.toNat, 0, 1) :=
    (word_eq_zero_iff a).1 ha ▸ egcd_zero b.toNat m.toNat
  rw [egcdOutcome_of_ok base, toWord, BitVec.ofNat_toNat, BitVec.setWidth_eq]
  rfl

/-- Settles O38: the Bézout triple fits the 64 bits of the three results. -/
theorem egcdResult : Obligations.EgcdResult := by
  intro s hm
  obtain ⟨g, x, y, value, triple⟩ := egcd_ok s.a.toNat s.b.toNat hm
  obtain ⟨t, ht, hr0, hr1, hr2, finished⟩ := exec_of_ok3 (i := .egcd) (egcdOutcome_of_ok value)
  have r0 : t.r0.toNat = g := by rw [hr0, toNat_toWord_of_lt (triple.gcd ▸ gcd_toNat_lt s.a s.b)]
  have r1 : t.r1.toNat = x := by rw [hr1, toNat_toWord_of_lt_word s.m triple.x_lt]
  have r2 : t.r2.toNat = y := by rw [hr2, toNat_toWord_of_lt (triple.y_le.trans_lt s.m.isLt)]
  refine ⟨t, ht, finished, r0.trans triple.gcd, ?_, fun nonzero => ?_, fun zero => ?_, by rw [r0, r1, r2, value]⟩
  · rw [r0, r1, r2]
    exact triple.bezout
  · rw [r1, r2]
    exact ⟨triple.x_lt, triple.y_lt (mt (word_eq_zero_iff s.a).2 nonzero)⟩
  · have base := egcdOutcome_of_zero s.b s.m zero
    rw [egcdOutcome_of_ok value, CmdOutcome.ok3.injEq] at base
    rwa [hr0, hr1, hr2]

/-- Settles O40: the base case does not look at the modulus, and every other level fails on it. -/
theorem egcdZeroModulus : Obligations.EgcdZeroModulus := by
  intro s hm
  refine ⟨fun zero => exec_of_ok3 (i := .egcd) (egcdOutcome_of_zero s.b s.m zero),
    fun nonzero => exec_of_err (i := .egcd) (egcdOutcome_of_error (k := .divideByZero) ?_)⟩
  rw [hm]
  exact egcd_zero_modulus s.b.toNat (mt (word_eq_zero_iff s.a).2 nonzero)

/-! ## The inverse -/

/-- MODINV's recursion runs on the reduced operand, whose gcd with `m` is the operand's, and its first coefficient then
multiplies the operand to that gcd modulo `m` (43_euclid_inverse.md R115, R116). -/
theorem modinv_eq (a : Nat) {m : Nat} (hm : 1 ≤ m) :
    ∃ x, modinv a m = (if Nat.gcd a m ≠ 1 then .error .noInverse else .ok x) ∧ a * x ≡ Nat.gcd a m [MOD m] := by
  obtain ⟨g, x, y, value, triple⟩ := egcd_ok (a % m) m hm
  have g_eq : g = Nat.gcd a m := triple.gcd.trans (Nat.mod_modEq a m).gcd_eq
  refine ⟨x % m, by simp only [modinv, value, g_eq], ?_⟩
  calc a * (x % m)
    _ ≡ a % m * x [MOD m] := (Nat.mod_modEq a m).symm.mul (Nat.mod_modEq x m)
    _ ≡ a % m * x + m * y [MOD m] := by simp [Nat.ModEq]
    _ ≡ Nat.gcd a m [MOD m] := g_eq ▸ triple.bezout

theorem modinv_of_coprime {a m : Nat} (hm : 1 ≤ m) (coprime : Nat.gcd a m = 1) :
    ∃ x, modinv a m = .ok x ∧ a * x ≡ 1 [MOD m] := by
  obtain ⟨x, value, inverse⟩ := modinv_eq a hm
  exact ⟨x, value.trans (if_neg (not_not.2 coprime)), coprime ▸ inverse⟩

theorem modinv_of_not_coprime {a m : Nat} (hm : 1 ≤ m) (common : Nat.gcd a m ≠ 1) : modinv a m = .error .noInverse := by
  obtain ⟨x, value, _⟩ := modinv_eq a hm
  exact value.trans (if_pos common)

/-- Two inverses below the modulus are the same (43_euclid_inverse.md R117). -/
theorem eq_of_mul_modEq_one {a m x y : Nat} (coprime : Nat.gcd a m = 1) (hx : x < m) (hy : y < m)
    (inverse_x : a * x ≡ 1 [MOD m]) (inverse_y : a * y ≡ 1 [MOD m]) : x = y :=
  (Nat.ModEq.cancel_left_of_coprime (Nat.gcd_comm a m ▸ coprime) (inverse_x.trans inverse_y.symm)).eq_of_lt_of_lt hx hy

/-- The model's primes are Mathlib's. -/
theorem prime_iff_natPrime (n : Nat) : prime n ↔ n.Prime := Nat.prime_def_lt'.symm

/-- The power of Fermat's little theorem with one factor split off (43_euclid_inverse.md R117). -/
theorem mul_pow_sub_two_modEq_one {a m : Nat} (coprime : Nat.gcd a m = 1) (hm : prime m) :
    a * (a ^ (m - 2) % m) ≡ 1 [MOD m] := by
  have two : 2 ≤ m := hm.1
  have exponent : m - 2 + 1 = m.totient := by rw [Nat.totient_prime ((prime_iff_natPrime m).1 hm)]; omega
  calc a * (a ^ (m - 2) % m)
    _ ≡ a * a ^ (m - 2) [MOD m] := (Nat.mod_modEq _ m).mul_left a
    _ = a ^ m.totient := by rw [← pow_succ', exponent]
    _ ≡ 1 [MOD m] := Nat.ModEq.pow_totient coprime

/-! ## What MODINV answers -/

/-- With a modulus coprime to `A`, MODINV answers an inverse of `A` below the modulus (43_euclid_inverse.md R117,
R119). -/
theorem exec_modinv_of_coprime {s : State} (hm : 1 ≤ s.m.toNat) (coprime : Nat.gcd s.a.toNat s.m.toNat = 1) :
    ∃ t, exec .modinv s = .next t ∧ Finished s t 0 ∧ t.r0.toNat < s.m.toNat ∧
      s.a.toNat * t.r0.toNat ≡ 1 [MOD s.m.toNat] := by
  obtain ⟨x, value, inverse⟩ := modinv_of_coprime hm coprime
  obtain ⟨t, ht, hr0, finished⟩ := exec_of_ok1 (i := .modinv) (modinvOutcome_of_ok hm value)
  have below : x < s.m.toNat := modinv_lt hm value
  have r0 : t.r0.toNat = x := by rw [hr0, toNat_toWord_of_lt_word s.m below]
  exact ⟨t, ht, finished, r0 ▸ below, r0 ▸ inverse⟩

/-- Settles O41: the coefficient for `A` is its inverse, and for a prime modulus POWMOD's power is one too. -/
theorem modinvResult : Obligations.ModinvResult := by
  intro s hm coprime
  obtain ⟨t, ht, finished, below, inverse⟩ := exec_modinv_of_coprime (Nat.le_of_succ_le hm) coprime
  have modEq_one (n : Nat) : n ≡ 1 [MOD s.m.toNat] ↔ n % s.m.toNat = 1 := by rw [Nat.ModEq, Nat.mod_eq_of_lt hm]
  have unique (x : Nat) (hx : x < s.m.toNat) (inverse_x : s.a.toNat * x ≡ 1 [MOD s.m.toNat]) : x = t.r0.toNat :=
    eq_of_mul_modEq_one coprime hx below inverse_x inverse
  refine ⟨t, ht, finished, below, (modEq_one _).1 inverse, fun x hx one => unique x hx ((modEq_one _).2 one),
    fun prime_m => ?_⟩
  obtain ⟨u, hu, ⟨_, _, err, _⟩, _, power, _⟩ := powmodResult { s with b := s.m - 2 } (Nat.le_of_succ_le hm)
  have exponent : (s.m - 2).toNat = s.m.toNat - 2 := BitVec.toNat_sub_of_le (BitVec.le_def.2 hm)
  have r0 : u.r0.toNat = s.a.toNat ^ (s.m.toNat - 2) % s.m.toNat :=
    exponent ▸ power hm (exponent ▸ Nat.sub_lt (Nat.zero_lt_of_lt hm) Nat.two_pos)
  refine ⟨u, hu, err, BitVec.eq_of_toNat_eq (unique _ ?_ ?_)⟩
  · rw [r0]
    exact Nat.mod_lt _ (Nat.zero_lt_of_lt hm)
  · rw [r0]
    exact mul_pow_sub_two_modEq_one coprime prime_m

/-- Settles O42: the zero modulus is tested before the recursion, a common factor after it, and below 1 there is only
the inverse 0. -/
theorem modinvErrorsAndModulusOne : Obligations.ModinvErrorsAndModulusOne := by
  intro s
  refine ⟨fun zero => exec_of_err (i := .modinv) (k := .divideByZero) (if_pos zero), fun hm common => ?_, fun one => ?_⟩
  · exact exec_of_err (i := .modinv) (modinvOutcome_of_error hm (modinv_of_not_coprime hm common))
  · have coprime : Nat.gcd s.a.toNat s.m.toNat = 1 := by rw [one, Nat.gcd_one_right]
    obtain ⟨t, ht, finished, below, _⟩ := exec_modinv_of_coprime one.ge coprime
    exact ⟨t, ht, (word_eq_zero_iff t.r0).2 (Nat.lt_one_iff.1 (one ▸ below)), finished⟩

end Sys2Proof.Machine

namespace Sys2Proof.Machine

/-! SUPPORT and the statements of 44_divmod.md: DIVMOD is the product by MODINV's inverse of the divisor, an error of
MODINV passed on, and with a coprime divisor that product is the unique quotient. -/

/-! ## The outcome, by what MODINV finds for the divisor -/

theorem divmod_of_inverse (a : Nat) {b m x : Nat} (nonzero : b ≠ 0) (value : modinv b m = .ok x) :
    divmod a b m = .ok (mulmod a x m) := by simp [divmod, nonzero, value]

theorem divmod_of_modinv_error (a : Nat) {b m : Nat} {k : ErrKind} (nonzero : b ≠ 0) (value : modinv b m = .error k) :
    divmod a b m = .error k := by simp [divmod, nonzero, value]

section
variable (a : Word) {b m : Word}

/-- A zero divisor is found before anything else is looked at (44_divmod.md R126). -/
theorem divmodOutcome_of_zero (zero : b = 0#64) : divmodOutcome a b m = .err .divideByZero := if_pos zero

theorem divmodOutcome_of_inverse {x : Nat} (hm : 1 ≤ m.toNat) (nonzero : b ≠ 0#64)
    (value : modinv b.toNat m.toNat = .ok x) : divmodOutcome a b m = .ok1 (toWord (mulmod a.toNat x m.toNat)) := by
  simp [divmodOutcome, nonzero, word_ne_zero_of_pos hm,
    divmod_of_inverse a.toNat (mt (word_eq_zero_iff b).2 nonzero) value]

theorem divmodOutcome_of_modinv_error {k : ErrKind} (hm : 1 ≤ m.toNat) (nonzero : b ≠ 0#64)
    (value : modinv b.toNat m.toNat = .error k) : divmodOutcome a b m = .err k := by
  simp [divmodOutcome, nonzero, word_ne_zero_of_pos hm,
    divmod_of_modinv_error a.toNat (mt (word_eq_zero_iff b).2 nonzero) value]

/-- Only the product by an inverse is answered as `Ok`, and it is reduced (44_divmod.md R129). -/
theorem divmodOutcome_below (b : Word) (hm : 1 ≤ m.toNat) : Below m (divmodOutcome a b m) := by
  by_cases zero : b = 0#64
  · exact divmodOutcome_of_zero a zero ▸ trivial
  · cases value : modinv b.toNat m.toNat with
    | error k => exact divmodOutcome_of_modinv_error a hm zero value ▸ trivial
    | ok x => exact .of_ok1 (divmodOutcome_of_inverse a hm zero value) (mulmod_lt _ _ hm)

end

/-! ## The quotient -/

/-- The product by an inverse of `b`, multiplied by `b`, is the dividend again (44_divmod.md R129). -/
theorem mulmod_inverse_mul_modEq (a : Nat) {b m x : Nat} (inverse : b * x ≡ 1 [MOD m]) :
    mulmod a x m * b ≡ a [MOD m] := by
  calc mulmod a x m * b
    _ ≡ a * x * b [MOD m] := (Nat.mod_modEq _ m).mul_right b
    _ = a * (b * x) := by ring
    _ ≡ a * 1 [MOD m] := inverse.mul_left a
    _ = a := mul_one a

/-- Two quotients by `b` below the modulus are the same (44_divmod.md R129). -/
theorem eq_of_mul_modEq_mul {b m v w : Nat} (coprime : Nat.gcd b m = 1) (hv : v < m) (hw : w < m)
    (h : v * b ≡ w * b [MOD m]) : v = w :=
  (Nat.ModEq.cancel_right_of_coprime (Nat.gcd_comm b m ▸ coprime) h).eq_of_lt_of_lt hv hw

/-- With a divisor coprime to the modulus, DIVMOD answers a quotient below the modulus (44_divmod.md R129). -/
theorem exec_divmod_of_coprime {s : State} (hm : 1 ≤ s.m.toNat) (nonzero : s.b ≠ 0)
    (coprime : Nat.gcd s.b.toNat s.m.toNat = 1) :
    ∃ t, exec .divmod s = .next t ∧ Finished s t 0 ∧ t.r0.toNat < s.m.toNat ∧
      t.r0.toNat * s.b.toNat ≡ s.a.toNat [MOD s.m.toNat] := by
  obtain ⟨x, value, inverse⟩ := modinv_of_coprime hm coprime
  obtain ⟨t, ht, hr0, finished⟩ := exec_of_ok1 (i := .divmod) (divmodOutcome_of_inverse s.a hm nonzero value)
  have below : mulmod s.a.toNat x s.m.toNat < s.m.toNat := mulmod_lt _ _ hm
  have r0 : t.r0.toNat = mulmod s.a.toNat x s.m.toNat := by rw [hr0, toNat_toWord_of_lt_word s.m below]
  exact ⟨t, ht, finished, r0 ▸ below, r0 ▸ mulmod_inverse_mul_modEq s.a.toNat inverse⟩

/-! ## What DIVMOD answers -/

/-- Settles O43: the product by the divisor's inverse is a quotient, and a coprime divisor cancels. -/
theorem divmodResult : Obligations.DivmodResult := by
  intro s hm
  refine ⟨_, exec_eq_complete .divmod s, (divmodOutcome_below s.a s.b hm).r0_lt, fun _ nonzero coprime => ?_⟩
  obtain ⟨t, ht, finished, below, quotient⟩ := exec_divmod_of_coprime hm nonzero coprime
  obtain rfl : s.complete (outcomeOf s.bounds .divmod s.a s.b s.m) = t := by
    simpa [exec_eq_complete] using ht
  exact ⟨finished, quotient, fun v hv h => eq_of_mul_modEq_mul coprime hv below (Nat.ModEq.trans h quotient.symm)⟩

/-- Settles O44: MODINV of the divisor either errs, and DIVMOD with it, or answers the inverse that DIVMOD and MULMOD
multiply by. -/
theorem divmodIsMulmodByModinv : Obligations.DivmodIsMulmodByModinv := by
  intro s hm
  refine ⟨fun zero => exec_of_err (i := .divmod) (divmodOutcome_of_zero s.a zero), fun nonzero => ?_⟩
  cases value : modinv s.b.toNat s.m.toNat with
  | error k =>
    obtain ⟨u, hu, _, _, _, err, _⟩ :=
      exec_of_err (i := .modinv) (s := { s with a := s.b }) (modinvOutcome_of_error hm value)
    refine ⟨u, hu, fun _ => ?_, fun noErr => absurd (err.symm.trans noErr) (errCode_ne_zero k)⟩
    exact err ▸ exec_of_err (i := .divmod) (divmodOutcome_of_modinv_error s.a hm nonzero value)
  | ok x =>
    obtain ⟨u, hu, hr0, _, _, err, _⟩ :=
      exec_of_ok1 (i := .modinv) (s := { s with a := s.b }) (modinvOutcome_of_ok hm value)
    refine ⟨u, hu, fun hasErr => absurd err hasErr, fun _ => ?_⟩
    have r0 : u.r0.toNat = x := by rw [hr0, toNat_toWord_of_lt_word s.m (modinv_lt hm value)]
    obtain ⟨t, ht, quotient, finished⟩ :=
      exec_of_ok1 (i := .divmod) (divmodOutcome_of_inverse s.a hm nonzero value)
    obtain ⟨p, hp, product, _⟩ :=
      exec_of_ok1 (i := .mulmod) (s := { s with b := u.r0 }) (mulmodOutcome_of_pos s.a u.r0 hm)
    exact ⟨t, p, ht, hp, by rw [quotient, product, r0], finished⟩

end Sys2Proof.Machine

namespace Sys2Proof.Machine

/-! SUPPORT and the statements of 45_isprime.md: the decomposition `n − 1 = d · 2^s`, the evaluation of a witness as
`SPRP`, the closed form of the witness loop, the stages ISPRIME goes through, and why a prime passes every witness. -/

/-! ## The decomposition -/

/-- `d` and `s` are what 45_isprime.md R132 asks of a decomposition of `n − 1`. -/
structure Decomposes (n d s : Nat) : Prop where
  odd : d % 2 = 1
  one_le : 1 ≤ s
  product : n - 1 = d * 2 ^ s

/-- With fuel for each bit of `d`, the halving loop ends at the odd part of `d` and has counted the factors 2 split off
(45_isprime.md R133). -/
theorem oddPartLoop_spec (fuel : Nat) {d : Nat} (s : Nat) (pos : 0 < d) (fits : d < 2 ^ fuel) :
    (oddPartLoop fuel d s).1 % 2 = 1 ∧
      ∃ k, (oddPartLoop fuel d s).2 = s + k ∧ d = (oddPartLoop fuel d s).1 * 2 ^ k := by
  induction fuel generalizing d s with
  | zero => exact absurd fits (by omega)
  | succ fuel ih =>
    simp only [oddPartLoop]
    split
    case isTrue even =>
      obtain ⟨odd, k, count, product⟩ := ih (d := d / 2) (s + 1) (by omega) (by omega)
      refine ⟨odd, k + 1, by rw [count]; omega, ?_⟩
      rw [pow_succ, ← mul_assoc, ← product]
      omega
    case isFalse odd => exact ⟨Nat.mod_two_ne_zero.1 odd, 0, rfl, by rw [pow_zero, mul_one]⟩

theorem sub_one_lt_two_pow {n : Nat} (hmax : n ≤ maxU64) : n - 1 < 2 ^ 64 :=
  (Nat.sub_le n 1).trans_lt (Nat.lt_succ_of_le hmax)

/-- The model's odd part decomposes every odd `n` from 3 to `MAX`: `n − 1` is even, so a factor 2 is split off. -/
theorem oddPart_decomposes {n : Nat} (hn : 3 ≤ n) (hmax : n ≤ maxU64) (odd : n % 2 = 1) :
    Decomposes n (oddPart n).1 (oddPart n).2 := by
  obtain ⟨odd_d, k, count, product⟩ := oddPartLoop_spec 64 0 (by omega : 0 < n - 1) (sub_one_lt_two_pow hmax)
  have count : (oddPart n).2 = k := count.trans (Nat.zero_add k)
  refine ⟨odd_d, count ▸ Nat.one_le_iff_ne_zero.2 ?_, count ▸ product⟩
  rintro rfl
  omega

theorem Decomposes.pos {n d s : Nat} (h : Decomposes n d s) : 1 ≤ d := Nat.pos_of_ne_zero fun zero => by
  simpa [zero] using h.odd

theorem Decomposes.le {n d s : Nat} (h : Decomposes n d s) : d ≤ n - 1 :=
  h.product ▸ Nat.le_mul_of_pos_right d (Nat.two_pow_pos s)

theorem Decomposes.lt {n d s : Nat} (h : Decomposes n d s) : d < n := by
  have pos := h.pos
  have le := h.le
  omega

theorem Decomposes.exponent_lt {n d s k : Nat} (h : Decomposes n d s) (fits : n - 1 < 2 ^ k) : s < k := by
  have le : 2 ^ s ≤ n - 1 := h.product ▸ Nat.le_mul_of_pos_left _ h.pos
  exact (Nat.pow_lt_pow_iff_right Nat.one_lt_two).1 (le.trans_lt fits)

/-- Settles O49: the halving loop has fuel for 64 bits. -/
theorem oddPartDecomposes : Obligations.OddPartDecomposes := by
  intro n hn hmax odd
  have h := oddPart_decomposes (Nat.le_of_add_left_le hn) hmax odd
  exact ⟨h.odd, h.one_le, Nat.le_of_lt_succ (h.exponent_lt (sub_one_lt_two_pow hmax)), h.pos, h.lt, h.product.symm⟩

/-- The power of 2 in one decomposition is coprime to the odd part of the other, so it divides the other's. -/
theorem Decomposes.exponent_le {n d s d' s' : Nat} (h : Decomposes n d s) (h' : Decomposes n d' s') : s ≤ s' := by
  have coprime : Nat.Coprime (2 ^ s) d' := (Nat.coprime_two_left.2 (Nat.odd_iff.2 h'.odd)).pow_left s
  have divides : 2 ^ s ∣ d' * 2 ^ s' := h'.product ▸ h.product ▸ Nat.dvd_mul_left _ d
  exact (Nat.pow_dvd_pow_iff_le_right Nat.one_lt_two).1 (coprime.dvd_of_dvd_mul_left divides)

theorem Decomposes.unique {n d s d' s' : Nat} (h : Decomposes n d s) (h' : Decomposes n d' s') : d = d' ∧ s = s' := by
  obtain rfl : s = s' := (h.exponent_le h').antisymm (h'.exponent_le h)
  exact ⟨Nat.eq_of_mul_eq_mul_right (Nat.two_pow_pos s) (h.product.symm.trans h'.product), rfl⟩

/-! ## The evaluation of a witness -/

/-- "The witness `p` passes" on one decomposition of `n − 1` (45_isprime.md R132). -/
def PassesWith (n d s p : Nat) : Prop := p ^ d % n = 1 ∨ ∃ r < s, p ^ (d * 2 ^ r) % n = n - 1

/-- `SPRP` may be tested on any decomposition, there being only one. -/
theorem Decomposes.sprp_iff {n d s : Nat} (h : Decomposes n d s) (p : Nat) : SPRP n p ↔ PassesWith n d s p := by
  have range (r : Nat) : r ≤ s - 1 ↔ r < s := Nat.le_sub_one_iff_lt h.one_le
  have onThis : PassesWith n d s p ↔ p ^ d % n = 1 ∨ ∃ r, r ≤ s - 1 ∧ p ^ (d * 2 ^ r) % n = n - 1 := by
    simp only [PassesWith, range]
  constructor
  · rintro ⟨d', s', odd, one_le, product, passes⟩
    obtain ⟨rfl, rfl⟩ := h.unique ⟨odd, one_le, product⟩
    exact onThis.2 passes
  · exact fun passes => ⟨d, s, h.odd, h.one_le, h.product, onThis.1 passes⟩

/-- The squaring loop runs through the residues of `a^2, a^4, …` (45_isprime.md R137). -/
theorem squaringFinds_iff (count a n : Nat) :
    squaringFinds count (a % n) n = true ↔ ∃ r < count, a ^ 2 ^ (r + 1) % n = n - 1 := by
  induction count generalizing a with
  | zero => simp [squaringFinds]
  | succ count ih =>
    have square : mulmod (a % n) (a % n) n = a ^ 2 % n := by rw [mulmod, ← Nat.mul_mod, sq]
    have later (r : Nat) : (a ^ 2) ^ 2 ^ (r + 1) = a ^ 2 ^ (r + 1 + 1) := by rw [← pow_mul, ← pow_succ']
    simp only [squaringFinds, square, Nat.exists_lt_succ_left, zero_add, pow_one]
    split
    case isTrue found => simp [found]
    case isFalse notFound => simp [notFound, ih, later]

/-- With the exponent below the modulus POWMOD's value is the exact power (42_powmod.md R103, R104). -/
theorem powmod_of_lt (a : Nat) {e m : Nat} (hm : 2 ≤ m) (hmax : m ≤ maxU64) (he : e < m) :
    powmod a e m = a ^ e % m := by rw [powmod_eq a e hm hmax, Nat.mod_eq_of_lt he, ← Nat.pow_mod]

/-- The evaluation tests `p^d` and its squares up to the `(s − 1)`-th (45_isprime.md R137). -/
theorem Decomposes.witnessPasses_iff {n d s : Nat} (h : Decomposes n d s) (hn : 2 ≤ n) (hmax : n ≤ maxU64) (p : Nat) :
    witnessPasses n d s p = true ↔ PassesWith n d s p := by
  obtain ⟨k, rfl⟩ := Nat.exists_eq_add_of_le' h.one_le
  have square (r : Nat) : (p ^ d) ^ 2 ^ r = p ^ (d * 2 ^ r) := (pow_mul p d _).symm
  simp only [witnessPasses, powmod_of_lt p hn hmax h.lt, PassesWith, Nat.exists_lt_succ_left, pow_zero, mul_one,
    Nat.add_sub_cancel]
  split
  case isTrue passes => exact iff_of_true rfl (passes.imp_right .inl)
  case isFalse fails =>
    obtain ⟨notOne, notMinusOne⟩ := not_or.1 fails
    simp only [squaringFinds_iff, square, notOne, notMinusOne, false_or]

/-- The evaluation on the model's decomposition is `SPRP`, whatever the base. -/
theorem witnessPasses_iff_sprp {n : Nat} (hn : 3 ≤ n) (hmax : n ≤ maxU64) (odd : n % 2 = 1) (p : Nat) :
    witnessPasses n (oddPart n).1 (oddPart n).2 p = true ↔ SPRP n p := by
  have h := oddPart_decomposes hn hmax odd
  rw [h.witnessPasses_iff (Nat.le_of_succ_le hn) hmax, h.sprp_iff]

/-- Settles O50: both are the test on the one decomposition of `n − 1`. -/
theorem witnessEvaluationIsSPRP : Obligations.WitnessEvaluationIsSPRP := fun _ p hmax ⟨large, odd, _⟩ _ =>
  witnessPasses_iff_sprp ((by decide : 3 ≤ 43).trans large) hmax odd p

/-! ## The witness loop -/

/-- When the witness loop ends with `true`, in closed form: some bound certifies `n` and the witnesses up to it pass, or
all pass (45_isprime.md R136). -/
def LoopAccepts (n : Nat) (primes bounds : List Nat) (passes : Nat → Prop) : Prop :=
  (∃ i, i < primes.length ∧ n < bounds.getD i 0 ∧ ∀ j, j ≤ i → passes (primes.getD j 0)) ∨
    ∀ j, j < primes.length → passes (primes.getD j 0)

/-- The first witness has to pass, and then its bound certifies `n` or the rest of the table does. -/
theorem loopAccepts_cons (n p bound : Nat) (primes bounds : List Nat) (passes : Nat → Prop) :
    LoopAccepts n (p :: primes) (bound :: bounds) passes ↔
      passes p ∧ (n < bound ∨ LoopAccepts n primes bounds passes) := by
  simp only [LoopAccepts, List.length_cons, Nat.exists_lt_succ_left, Nat.forall_lt_succ_left, ← Nat.lt_succ_iff,
    Nat.succ_eq_add_one, List.getD_cons_zero, List.getD_cons_succ]
  by_cases first : passes p <;> simp [first, or_assoc]

theorem witnessLoop_iff {primes bounds : List Nat} (sameLength : primes.length = bounds.length) (n d s : Nat) :
    witnessLoop (primes.zip bounds) n d s = true ↔ LoopAccepts n primes bounds (witnessPasses n d s · = true) := by
  induction primes generalizing bounds with
  | nil => simp [witnessLoop, LoopAccepts]
  | cons p primes ih =>
    cases bounds with
    | nil => cases sameLength
    | cons bound bounds =>
      rw [loopAccepts_cons, ← ih (Nat.succ.inj sameLength)]
      simp [witnessLoop]

theorem length_witnessBounds (bounds : OpenBounds) : witnessPrimes.length = (witnessBounds bounds).length := by
  simp [witnessPrimes, witnessBounds]

/-! ## The stages -/

theorem map_fst_witnessTable (bounds : OpenBounds) : (witnessTable bounds).map Prod.fst = witnessPrimes :=
  List.map_fst_zip (length_witnessBounds bounds).le

/-- Trial division answers with the first listed number that divides `n` (45_isprime.md R134). -/
theorem trialDivision_eq (ps : List Nat) (n : Nat) : trialDivision ps n = (ps.find? (· ∣ n)).map (n == ·) := by
  induction ps with
  | nil => rfl
  | cons p ps ih =>
    simp only [trialDivision, List.find?_cons, ← Nat.dvd_iff_mod_eq_zero]
    split
    case isTrue divides => simp [divides]
    case isFalse none => simp [none, ih]

theorem prime_of_mem_witnessPrimes {p : Nat} (hp : p ∈ witnessPrimes) : prime p :=
  ((witnessPrimesAreThePrimesTo41.1 p).1 hp).1

/-- A prime's only divisor from 2 up is the prime itself. -/
theorem prime.eq_of_dvd {n p : Nat} (hn : prime n) (hp : 2 ≤ p) (divides : p ∣ n) : p = n :=
  ((Nat.dvd_prime ((prime_iff_natPrime n).1 hn)).1 divides).resolve_left (by omega)

/-- When a witness prime divides `n`, the verdict of trial division is whether `n` is a witness prime: the first divisor
found is then `n` itself (45_isprime.md R134). -/
theorem trialDivision_of_dvd {n p : Nat} (hp : p ∈ witnessPrimes) (divides : p ∣ n) :
    trialDivision witnessPrimes n = some (decide (n ∈ witnessPrimes)) := by
  obtain ⟨q, found⟩ := Option.isSome_iff_exists.1 (List.find?_isSome (p := (· ∣ n)).2 ⟨p, hp, by simpa using divides⟩)
  have mem : q ∈ witnessPrimes := List.mem_of_find?_eq_some found
  have q_dvd : q ∣ n := by simpa using List.find?_some found
  have verdict : n = q ↔ n ∈ witnessPrimes := ⟨fun h => h ▸ mem, fun h =>
    ((prime_of_mem_witnessPrimes h).eq_of_dvd (prime_of_mem_witnessPrimes mem).1 q_dvd).symm⟩
  simp [trialDivision_eq, found, ← verdict, beq_eq_decide]

theorem trialDivision_of_reaches {n : Nat} (h : ReachesWitnesses n) : trialDivision witnessPrimes n = none := by
  rw [trialDivision_eq, Option.map_eq_none_iff, List.find?_eq_none]
  simpa using h.2.2

section
variable {n : Nat} (bounds : OpenBounds)

theorem isprime_of_lt_two (h : n < 2) : isprime (witnessTable bounds) n = false := if_pos h

theorem isprime_two_or_three (h : n = 2 ∨ n = 3) : isprime (witnessTable bounds) n = true := by
  rw [isprime, if_neg (by omega), if_pos h]

theorem isprime_of_even (h : 2 < n) (even : n % 2 = 0) : isprime (witnessTable bounds) n = false := by
  rw [isprime, if_neg (by omega), if_neg (by omega), if_pos even]

/-- The stages after the trivial cases (45_isprime.md R130). -/
theorem isprime_of_odd (h : 5 ≤ n) (odd : n % 2 = 1) :
    isprime (witnessTable bounds) n =
      (trialDivision witnessPrimes n).getD (witnessLoop (witnessTable bounds) n (oddPart n).1 (oddPart n).2) := by
  rw [isprime, if_neg (by omega), if_neg (by omega), if_neg (by omega), map_fst_witnessTable]
  cases trialDivision witnessPrimes n <;> rfl

theorem isprime_of_witness_dvd (h : 5 ≤ n) (odd : n % 2 = 1) {p : Nat} (hp : p ∈ witnessPrimes) (divides : p ∣ n) :
    isprime (witnessTable bounds) n = decide (n ∈ witnessPrimes) := by
  rw [isprime_of_odd bounds h odd, trialDivision_of_dvd hp divides, Option.getD_some]

/-- The verdict of the witness loop by `SPRP` (45_isprime.md R136). -/
theorem isprime_iff_of_reaches (hmax : n ≤ maxU64) (h : ReachesWitnesses n) :
    isprime (witnessTable bounds) n = true ↔ LoopAccepts n witnessPrimes (witnessBounds bounds) (SPRP n) := by
  have odd := h.2.1
  have large : 5 ≤ n := (by decide : 5 ≤ 43).trans h.1
  rw [isprime_of_odd bounds large odd, trialDivision_of_reaches h, Option.getD_none, witnessTable,
    witnessLoop_iff (length_witnessBounds bounds)]
  simp only [witnessPasses_iff_sprp (Nat.le_of_add_left_le large : 3 ≤ n) hmax odd]

end

/-- An odd number from 5 up that no witness prime divides is at least 43: its least prime factor is above 41. -/
theorem reachesWitnesses_of_not_dvd {n : Nat} (h : 5 ≤ n) (odd : n % 2 = 1) (hn : ∀ p ∈ witnessPrimes, ¬ p ∣ n) :
    ReachesWitnesses n := by
  refine ⟨?_, odd, hn⟩
  have isPrime : prime n.minFac := (prime_iff_natPrime _).2 (Nat.minFac_prime (by omega))
  have above : ¬ n.minFac ≤ 41 := fun le =>
    hn n.minFac ((witnessPrimesAreThePrimesTo41.1 _).2 ⟨isPrime, le⟩) (Nat.minFac_dvd n)
  have le : n.minFac ≤ n := Nat.minFac_le (by omega)
  omega

/-- The stage in which an operand's verdict falls (45_isprime.md R130, R131, R134). -/
inductive Stage (n : Nat) : Prop where
  | belowTwo (h : n < 2)
  | twoOrThree (h : n = 2 ∨ n = 3)
  | even (h : 2 < n) (even : n % 2 = 0)
  | witnessDivides (h : 5 ≤ n) (odd : n % 2 = 1) {p : Nat} (hp : p ∈ witnessPrimes) (divides : p ∣ n)
  | witnessLoop (h : ReachesWitnesses n)

theorem stage (n : Nat) : Stage n := by
  by_cases late : 5 ≤ n ∧ n % 2 = 1
  · obtain ⟨h, odd⟩ := late
    by_cases divides : ∃ p ∈ witnessPrimes, p ∣ n
    · obtain ⟨p, hp, divides⟩ := divides
      exact .witnessDivides h odd hp divides
    · exact .witnessLoop (reachesWitnesses_of_not_dvd h odd fun p hp hn => divides ⟨p, hp, hn⟩)
  · have early : n < 2 ∨ (n = 2 ∨ n = 3) ∨ (2 < n ∧ n % 2 = 0) := by omega
    exact early.elim .belowTwo fun h => h.elim .twoOrThree fun ⟨h, even⟩ => .even h even

/-! ## What ISPRIME answers -/

/-- ISPRIME answers its verdict as 1 or 0, never an error (45_isprime.md R135). -/
theorem exec_isprime (s : State) :
    ∃ t, exec .isprime s = .next t ∧ Finished s t 0 ∧
      (t.r0 = 1 ↔ isprime (witnessTable s.bounds) s.a.toNat = true) ∧
      (t.r0 = 0 ↔ isprime (witnessTable s.bounds) s.a.toNat = false) := by
  obtain ⟨t, ht, hr0, finished⟩ := exec_of_ok1 (i := .isprime) (s := s) rfl
  exact ⟨t, ht, finished, by rw [hr0]; exact boolWord_eq_one _, by rw [hr0]; exact boolWord_eq_zero _⟩

/-- Settles O47: the verdicts of the stages before the witness loop. -/
theorem isprimeSmallCases : Obligations.IsprimeSmallCases := by
  intro s
  obtain ⟨t, ht, finished, one, zero⟩ := exec_isprime s
  refine ⟨t, ht, finished, fun h => zero.2 (isprime_of_lt_two _ h), fun h => one.2 (isprime_two_or_three _ h),
    fun h even => zero.2 (isprime_of_even _ h even), fun p hp h odd divides => ?_⟩
  have verdict := isprime_of_witness_dvd s.bounds h odd hp divides
  split
  case isTrue mem => exact one.2 (verdict.trans (decide_eq_true mem))
  case isFalse notMem => exact zero.2 (verdict.trans (decide_eq_false notMem))

/-- Settles O48: the closed form of the loop on the thirteen witnesses, each evaluated as `SPRP`. -/
theorem isprimeWitnessLoop : Obligations.IsprimeWitnessLoop := by
  intro s h
  obtain ⟨t, ht, finished, one, zero⟩ := exec_isprime s
  refine ⟨t, ht, finished, ?_, one.trans (isprime_iff_of_reaches s.bounds (Nat.le_of_lt_succ s.a.isLt) h)⟩
  rw [one, zero]
  exact Bool.eq_false_or_eq_true _

/-! ## A prime passes every witness -/

/-- Where 1 has only the two square roots, repeated squaring reaches 1 from 1 or through `−1`. -/
theorem eq_one_or_pow_eq_neg_one {R : Type*} [Ring R] [NoZeroDivisors R] {x : R} {k : Nat} (h : x ^ 2 ^ k = 1) :
    x = 1 ∨ ∃ r < k, x ^ 2 ^ r = -1 := by
  induction k with
  | zero => exact .inl (by simpa using h)
  | succ k ih =>
    have square : x ^ 2 ^ k * x ^ 2 ^ k = 1 := by rw [← pow_add, ← two_mul, ← pow_succ', h]
    obtain one | minusOne := mul_self_eq_one_iff.1 square
    · exact (ih one).imp_right fun ⟨r, hr, minusOne⟩ => ⟨r, hr.trans k.lt_succ_self, minusOne⟩
    · exact .inr ⟨k, k.lt_succ_self, minusOne⟩

theorem mod_eq_one_iff_cast {n : Nat} (hn : 2 ≤ n) (a : Nat) : a % n = 1 ↔ (a : ZMod n) = 1 := by
  rw [← Nat.cast_one (R := ZMod n), ZMod.natCast_eq_natCast_iff', Nat.mod_eq_of_lt hn]

theorem mod_eq_sub_one_iff_cast {n : Nat} (hn : 1 ≤ n) (a : Nat) : a % n = n - 1 ↔ (a : ZMod n) = -1 := by
  have minusOne : ((n - 1 : Nat) : ZMod n) = -1 := by rw [Nat.cast_pred hn, ZMod.natCast_self, zero_sub]
  rw [← minusOne, ZMod.natCast_eq_natCast_iff', Nat.mod_eq_of_lt (Nat.sub_one_lt_of_le hn le_rfl)]

/-- By Fermat's little theorem `p^(d · 2^s)` is 1 modulo a prime `n`, and only `±1` are square roots of 1 there
(45_isprime.md R138). -/
theorem Decomposes.passesWith_of_prime {n d s p : Nat} (h : Decomposes n d s) (hn : prime n) (hp : ¬ n ∣ p) :
    PassesWith n d s p := by
  have natPrime : Fact n.Prime := ⟨(prime_iff_natPrime n).1 hn⟩
  have fermat : (p : ZMod n) ^ (n - 1) = 1 :=
    ZMod.pow_card_sub_one_eq_one (mt (ZMod.natCast_eq_zero_iff p n).1 hp)
  rw [h.product, pow_mul] at fermat
  simp only [PassesWith, mod_eq_one_iff_cast hn.1, mod_eq_sub_one_iff_cast (Nat.le_of_succ_le hn.1), Nat.cast_pow,
    pow_mul]
  exact eq_one_or_pow_eq_neg_one fermat

theorem sprp_of_prime {n p : Nat} (hmax : n ≤ maxU64) (reaches : ReachesWitnesses n) (hn : prime n)
    (hp : p ∈ witnessPrimes) : SPRP n p := by
  obtain ⟨large, odd, not_dvd⟩ := reaches
  have h := oddPart_decomposes (by omega : 3 ≤ n) hmax odd
  refine (h.sprp_iff p).2 (h.passesWith_of_prime hn fun divides => ?_)
  obtain rfl := (prime_of_mem_witnessPrimes hp).eq_of_dvd hn.1 divides
  exact not_dvd n hp dvd_rfl

/-! ## ISPRIME and primality -/

theorem prime.mod_two_ne_zero {n : Nat} (hn : prime n) (h : 2 < n) : n % 2 ≠ 0 := fun even =>
  h.ne (hn.eq_of_dvd le_rfl (Nat.dvd_of_mod_eq_zero even))

/-- The stages before the witness loop decide primality by arithmetic, whatever the bounds (45_isprime.md R138). -/
theorem isprime_iff_prime_of_not_reaches (bounds : OpenBounds) {n : Nat} (notReaches : ¬ ReachesWitnesses n) :
    isprime (witnessTable bounds) n = true ↔ prime n := by
  cases stage n with
  | belowTwo h =>
    rw [isprime_of_lt_two bounds h]
    exact iff_of_false Bool.false_ne_true fun hn => absurd hn.1 (Nat.not_le_of_lt h)
  | twoOrThree h =>
    rw [isprime_two_or_three bounds h, prime_iff_natPrime]
    rcases h with rfl | rfl
    · exact iff_of_true rfl Nat.prime_two
    · exact iff_of_true rfl Nat.prime_three
  | even h even =>
    rw [isprime_of_even bounds h even]
    exact iff_of_false Bool.false_ne_true fun hn => hn.mod_two_ne_zero h even
  | witnessDivides h odd hp divides =>
    rw [isprime_of_witness_dvd bounds h odd hp divides, decide_eq_true_iff]
    exact ⟨prime_of_mem_witnessPrimes, fun hn => hn.eq_of_dvd (prime_of_mem_witnessPrimes hp).1 divides ▸ hp⟩
  | witnessLoop reaches => exact absurd reaches notReaches

/-- A prime passes all thirteen witnesses, so no bound can make it rejected (45_isprime.md R138). -/
theorem isprime_of_prime (bounds : OpenBounds) {n : Nat} (hmax : n ≤ maxU64) (hn : prime n) :
    isprime (witnessTable bounds) n = true := by
  by_cases reaches : ReachesWitnesses n
  · refine (isprime_iff_of_reaches bounds hmax reaches).2 (.inr fun j hj => ?_)
    rw [List.getD_eq_getElem _ _ hj]
    exact sprp_of_prime hmax reaches hn (List.getElem_mem hj)
  · exact (isprime_iff_prime_of_not_reaches bounds reaches).2 hn

/-- `MAX` is a multiple of 3, so an operand in the witness loop lies below the last bound (45_isprime.md R138). -/
theorem lt_maxU64_of_reaches {n : Nat} (hmax : n ≤ maxU64) (h : ReachesWitnesses n) : n < maxU64 := by
  refine lt_of_le_of_ne hmax ?_
  rintro rfl
  exact h.2.2 3 (by decide) (by decide)

theorem last_witnessBound (bounds : OpenBounds) : (witnessBounds bounds).getD 12 0 = maxU64 := by
  simp [witnessBounds]

/-- Sound bounds certify what the loop accepts; all thirteen witnesses passing is the case `i = 12` (45_isprime.md
R138). -/
theorem SoundAt.prime_of_isprime {bounds : OpenBounds} {n : Nat} (sound : SoundAt bounds n) (hmax : n ≤ maxU64)
    (reaches : ReachesWitnesses n) (accepted : isprime (witnessTable bounds) n = true) : prime n := by
  rcases (isprime_iff_of_reaches bounds hmax reaches).1 accepted with ⟨i, hi, below, passes⟩ | passes
  · exact sound i hi reaches below passes
  · have below := (lt_maxU64_of_reaches hmax reaches).trans_eq (last_witnessBound bounds).symm
    exact sound 12 (by decide) reaches below fun j hj => passes j (Nat.lt_succ_of_le hj)

theorem SoundAt.isprime_iff_prime {bounds : OpenBounds} {n : Nat} (sound : SoundAt bounds n) (hmax : n ≤ maxU64) :
    isprime (witnessTable bounds) n = true ↔ prime n := by
  by_cases reaches : ReachesWitnesses n
  · exact ⟨sound.prime_of_isprime hmax reaches, isprime_of_prime bounds hmax⟩
  · exact isprime_iff_prime_of_not_reaches bounds reaches

/-- Settles O46: a prime is accepted before the witness loop or passes every witness. -/
theorem isprimeAcceptsEveryPrime : Obligations.IsprimeAcceptsEveryPrime := by
  intro s hn
  obtain ⟨t, ht, finished, one, _⟩ := exec_isprime s
  exact ⟨t, ht, finished, one.2 (isprime_of_prime s.bounds (Nat.le_of_lt_succ s.a.isLt) hn)⟩

/-- Settles O45: the verdict decides primality, and `R0` is the verdict. -/
theorem isprimeDecidesPrimality : Obligations.IsprimeDecidesPrimality := by
  intro s sound
  obtain ⟨t, ht, finished, one, zero⟩ := exec_isprime s
  have decides := sound.isprime_iff_prime (Nat.le_of_lt_succ s.a.isLt)
  refine ⟨t, ht, finished, one.trans decides, ?_⟩
  rw [zero, ← Bool.not_eq_true, decides]

end Sys2Proof.Machine

namespace Sys2Proof.Machine

/-! SUPPORT and the statements of 46_isqrt.md: `isqrt` as Mathlib's square root, the verdict on perfect squares, and the
digit-by-digit loop as a simulation of the root decided from the top bit down. -/

/-! ## The integer square root -/

/-- The bits below `2 ^ k` are decided so that the root stays between `r` and `r + 2 ^ k`. -/
theorem floorSqrtBits_eq_sqrt (k : Nat) {r x : Nat} (lower : r * r ≤ x) (upper : x < (r + 2 ^ k) * (r + 2 ^ k)) :
    floorSqrtBits k r x = Nat.sqrt x := by
  induction k generalizing r with
  | zero => exact Nat.eq_sqrt.2 ⟨lower, upper⟩
  | succ k ih =>
    rw [floorSqrtBits]
    split
    case isTrue fits =>
      refine ih fits ?_
      rwa [add_assoc, ← two_mul, ← pow_succ']
    case isFalse exceeds => exact ih lower (Nat.lt_of_not_le exceeds)

/-- `k` bits of root are enough for a number of `2·k` bits. -/
theorem floorSqrtBits_zero_eq_sqrt {k x : Nat} (h : x < 2 ^ (2 * k)) : floorSqrtBits k 0 x = Nat.sqrt x := by
  refine floorSqrtBits_eq_sqrt k (Nat.zero_le x) ?_
  rwa [Nat.zero_add, ← pow_add, ← two_mul]

theorem isqrt_eq_sqrt (a : Word) : isqrt a.toNat = Nat.sqrt a.toNat := floorSqrtBits_zero_eq_sqrt a.isLt

/-- The root of a word has at most 32 bits (46_isqrt.md R145). -/
theorem sqrt_toNat_lt (a : Word) : Nat.sqrt a.toNat < 2 ^ 32 := Nat.sqrt_lt.2 a.isLt

/-- Settles O51: `R0` is the square root of `A`, which has at most 32 bits. -/
theorem isqrtResult : Obligations.IsqrtResult := by
  intro s
  obtain ⟨t, ht, hr0, finished⟩ := exec_of_ok1 (i := .isqrt) (s := s) rfl
  have small := sqrt_toNat_lt s.a
  have root : t.r0.toNat = Nat.sqrt s.a.toNat := by
    rw [hr0, isqrt_eq_sqrt, toNat_toWord_of_lt (small.trans (by decide))]
  refine ⟨t, ht, finished, ?_⟩
  rw [root]
  exact ⟨Nat.sqrt_le _, Nat.lt_succ_sqrt _, Nat.le_of_lt_succ small,
    fun top => Nat.le_antisymm (Nat.le_of_lt_succ small) (Nat.le_sqrt.2 top)⟩

theorem issquare_iff (a : Word) : issquare a.toNat = true ↔ ∃ k, k * k = a.toNat := by
  rw [issquare, isqrt_eq_sqrt, beq_iff_eq, Nat.exists_mul_self]

/-- Settles O52: `R0` is the verdict `issquare`, which tests whether the root's square is `A`. -/
theorem issquareResult : Obligations.IssquareResult := by
  intro s
  obtain ⟨t, ht, hr0, finished⟩ := exec_of_ok1 (i := .issquare) (s := s) rfl
  refine ⟨t, ht, finished, ?_, ?_⟩
  · rw [hr0, ← issquare_iff]
    exact boolWord_eq_one _
  · rw [hr0, ← issquare_iff, Bool.not_eq_true]
    exact boolWord_eq_zero _

/-! ## The digit-by-digit loop -/

/-- Setting bits below all bits of `y` adds them (the note on `t` of 46_isqrt.md R147). -/
theorem toNat_or_of_lt {y b : Word} {i d : Nat} (hy : y.toNat = 2 ^ i * d) (hb : b.toNat < 2 ^ i) :
    (y ||| b).toNat = 2 ^ i * d + b.toNat := by
  rw [BitVec.toNat_or, hy, Nat.two_pow_add_eq_or_of_lt hb]

/-- Setting the next bit of the root raises its square by the loop's `t`. -/
theorem square_set_bit (k d : Nat) :
    (2 * d + 1) * 2 ^ k * ((2 * d + 1) * 2 ^ k) =
      2 ^ (2 * k) * (4 * d + 1) + d * 2 ^ (k + 1) * (d * 2 ^ (k + 1)) := by ring

/-- `bit` in a `DigitState`, with a bit of the root to decide. -/
theorem two_pow_div_four (k : Nat) : 2 ^ (2 * (k + 1)) / 4 = 2 ^ (2 * k) := by
  rw [Nat.mul_succ, pow_add]
  exact Nat.mul_div_cancel _ (by decide)

/-- The loop's values with `k` bits of the root of `x` still to decide, when the bits decided so far are those of `d`:
`rem` is what the square of `d · 2 ^ k` leaves of `x`, and `y` is that root shifted up to stand above `bit`. -/
structure DigitState (x k d : Nat) (rem bit y : Word) : Prop where
  remainder : rem.toNat + d * 2 ^ k * (d * 2 ^ k) = x
  position : bit.toNat = 2 ^ (2 * k) / 4
  accumulator : y.toNat = 2 ^ (2 * k) * d

namespace DigitState

variable {x k d : Nat} {rem bit y : Word}

theorem bit_eq_zero (h : DigitState x 0 d rem bit y) : bit = 0 := (word_eq_zero_iff bit).2 h.position

theorem toNat_bit (h : DigitState x (k + 1) d rem bit y) : bit.toNat = 2 ^ (2 * k) :=
  h.position.trans (two_pow_div_four k)

theorem bit_ne_zero (h : DigitState x (k + 1) d rem bit y) : bit ≠ 0 := by
  refine mt (word_eq_zero_iff bit).1 ?_
  rw [h.toNat_bit]
  exact (Nat.two_pow_pos _).ne'

/-- The value `t` that the loop compares with `rem`. -/
theorem toNat_or_bit (h : DigitState x (k + 1) d rem bit y) : (y ||| bit).toNat = 2 ^ (2 * k) * (4 * d + 1) := by
  have below : bit.toNat < 2 ^ (2 * (k + 1)) := by
    rw [h.toNat_bit]
    exact Nat.pow_lt_pow_right (by decide) (by omega)
  rw [toNat_or_of_lt h.accumulator below, h.toNat_bit]
  ring

theorem toNat_shifted_bit (h : DigitState x (k + 1) d rem bit y) : (bit >>> 2).toNat = 2 ^ (2 * k) / 4 := by
  rw [BitVec.toNat_ushiftRight, h.toNat_bit, Nat.shiftRight_eq_div_pow]

theorem toNat_halved (h : DigitState x (k + 1) d rem bit y) : (y >>> 1).toNat = 2 ^ (2 * k + 1) * d := by
  have double : 2 ^ (2 * (k + 1)) * d = 2 * (2 ^ (2 * k + 1) * d) := by ring
  rw [BitVec.toNat_ushiftRight, h.accumulator, double, Nat.shiftRight_eq_div_pow]
  exact Nat.mul_div_cancel_left _ (by decide)

/-- The loop's comparison is the one of `floorSqrtBits`. -/
theorem or_bit_le_iff (h : DigitState x (k + 1) d rem bit y) :
    y ||| bit ≤ rem ↔ (2 * d + 1) * 2 ^ k * ((2 * d + 1) * 2 ^ k) ≤ x := by
  rw [BitVec.le_def, h.toNat_or_bit, square_set_bit, ← h.remainder, Nat.add_le_add_iff_right]

/-- A bit the loop takes is a set bit of the root. -/
theorem take (h : DigitState x (k + 1) d rem bit y) (le : y ||| bit ≤ rem) :
    DigitState x k (2 * d + 1) (rem - (y ||| bit)) (bit >>> 2) (y >>> 1 ||| bit) where
  remainder := by
    have fits := BitVec.le_def.1 le
    rw [BitVec.toNat_sub_of_le le, ← h.remainder, square_set_bit, ← h.toNat_or_bit, ← Nat.add_assoc,
      Nat.sub_add_cancel fits]
  position := h.toNat_shifted_bit
  accumulator := by
    have below : bit.toNat < 2 ^ (2 * k + 1) := by
      rw [h.toNat_bit]
      exact Nat.pow_lt_pow_succ (by decide)
    rw [toNat_or_of_lt h.toNat_halved below, h.toNat_bit]
    ring

/-- A bit the loop skips is a clear bit of the root; `rem` stays. -/
theorem skip (h : DigitState x (k + 1) d rem bit y) : DigitState x k (2 * d) rem (bit >>> 2) (y >>> 1) where
  remainder := by
    rw [← h.remainder]
    ring
  position := h.toNat_shifted_bit
  accumulator := by
    rw [h.toNat_halved]
    ring

end DigitState

/-- One bit of `floorSqrtBits`, when the root is a multiple of the bits to decide. -/
theorem floorSqrtBits_succ_digit (k d x : Nat) :
    floorSqrtBits (k + 1) (d * 2 ^ (k + 1)) x =
      if (2 * d + 1) * 2 ^ k * ((2 * d + 1) * 2 ^ k) ≤ x then floorSqrtBits k ((2 * d + 1) * 2 ^ k) x
      else floorSqrtBits k (2 * d * 2 ^ k) x := by
  have skipped : d * 2 ^ (k + 1) = 2 * d * 2 ^ k := by ring
  have taken : 2 * d * 2 ^ k + 2 ^ k = (2 * d + 1) * 2 ^ k := by ring
  rw [floorSqrtBits, skipped, taken]

/-- Each turn of the loop decides the bit that `floorSqrtBits` decides. -/
theorem DigitState.toNat_digitLoop {x k d : Nat} {rem bit y : Word} (h : DigitState x k d rem bit y) {fuel : Nat}
    (enough : k < fuel) : (digitLoop fuel rem bit y).toNat = floorSqrtBits k (d * 2 ^ k) x := by
  induction fuel generalizing k d rem bit y with
  | zero => exact absurd enough (Nat.not_lt_zero k)
  | succ fuel ih =>
    cases k with
    | zero =>
      rw [digitLoop, if_pos h.bit_eq_zero, h.accumulator]
      exact Nat.mul_comm _ _
    | succ k =>
      have turns := Nat.lt_of_succ_lt_succ enough
      rw [digitLoop, if_neg h.bit_ne_zero, floorSqrtBits_succ_digit]
      by_cases le : y ||| bit ≤ rem
      · rw [if_pos (h.or_bit_le_iff.1 le), ← ih (h.take le) turns]
        simp only [ge_iff_le, if_pos le]
      · rw [if_neg (mt h.or_bit_le_iff.2 le), ← ih h.skip turns]
        simp only [ge_iff_le, if_neg le]

/-- The loop starts with no bit decided and `bit` at an even position below 64. -/
theorem DigitState.start (x : Word) {p : Nat} (h : p < 32) :
    DigitState x.toNat (p + 1) 0 x (1#64 <<< (2 * p)) 0 where
  remainder := by simp
  position := by
    have fits : 2 ^ (2 * p) < 2 ^ 64 := Nat.pow_lt_pow_right (by decide) (by omega)
    rw [← BitVec.twoPow_eq, BitVec.toNat_twoPow, Nat.mod_eq_of_lt fits, two_pow_div_four]
  accumulator := rfl

/-- Half the position of the highest bit counts the bits of the root. -/
theorem lt_two_pow_two_mul_log2_half (n : Nat) : n < 2 ^ (2 * (n.log2 / 2 + 1)) :=
  Nat.lt_log2_self.trans_le (Nat.pow_le_pow_right (by decide) (by omega))

theorem log2_half_toNat_lt {x : Word} (nonzero : x.toNat ≠ 0) : x.toNat.log2 / 2 < 32 :=
  Nat.div_lt_of_lt_mul ((Nat.log2_lt nonzero).2 x.isLt)

/-- The operands that 46_isqrt.md R147 answers without the loop. -/
theorem sqrt_of_le_three {n : Nat} (pos : n ≠ 0) (le : n ≤ 3) : Nat.sqrt n = 1 :=
  (Nat.eq_sqrt.2 ⟨Nat.pos_of_ne_zero pos, Nat.lt_succ_of_le le⟩).symm

/-- Settles O58: up to 3 the root is answered directly, and from 4 up the loop decides every bit of it. -/
theorem digitLoopEqualsIsqrt : Obligations.DigitLoopEqualsIsqrt := by
  intro x
  rw [isqrt_eq_sqrt, isqrtDigits]
  split_ifs with small zero
  · rw [zero]
    rfl
  · exact (sqrt_of_le_three (mt (word_eq_zero_iff x).2 zero) (BitVec.le_def.1 small)).symm
  · have nonzero : x.toNat ≠ 0 := fun h => small (BitVec.le_def.2 (h.trans_le (Nat.zero_le _)))
    have enough := log2_half_toNat_lt nonzero
    rw [(DigitState.start x enough).toNat_digitLoop (Nat.succ_lt_succ enough), Nat.zero_mul]
    exact floorSqrtBits_zero_eq_sqrt (lt_two_pow_two_mul_log2_half _)

end Sys2Proof.Machine

namespace Sys2Proof.Machine

/-! SUPPORT and the statements of 60_exceptions.md: `ERR` names the error kind of the outcome, and for each command the
operands with which its outcome is an error of that kind. -/

/-! ## `ERR` and the outcome -/

theorem errCode_inj {j k : ErrKind} : errCode j = errCode k ↔ j = k := by cases j <;> cases k <;> decide

/-- A completion leaves the code of an error kind in `ERR` exactly when it is that error (10_state.md R20, R33). -/
theorem complete_err_eq_errCode_iff (o : CmdOutcome) (s : State) (k : ErrKind) :
    (s.complete o).err = errCode k ↔ o = .err k := by
  cases o with
  | ok1 v0 => simpa using (errCode_ne_zero k).symm
  | ok3 v0 v1 v2 => simpa using (errCode_ne_zero k).symm
  | err j => simp [errCode_inj]

/-- A completion with an error is the error's write of `STATUS` (60_exceptions.md R164). -/
theorem complete_eq_of_err_ne_zero {o : CmdOutcome} {s : State} (h : (s.complete o).err ≠ 0) :
    s.complete o = { s with status := (s.complete o).status } := by
  cases o with
  | ok1 v0 => exact absurd (s.complete_ok1_err v0) h
  | ok3 v0 v1 v2 => exact absurd (s.complete_ok3_err v0 v1 v2) h
  | err k => rfl

theorem exec_err_eq_errCode_iff (i : Instr) (s : State) (k : ErrKind) :
    ∃ t, exec i s = .next t ∧ (t.err = errCode k ↔ outcomeOf s.bounds i s.a s.b s.m = .err k) :=
  ⟨_, exec_eq_complete i s, complete_err_eq_errCode_iff _ s k⟩

/-! ## When the outcome of a command is an error -/

theorem one_le_toNat_iff (m : Word) : 1 ≤ m.toNat ↔ m ≠ 0#64 :=
  Nat.one_le_iff_ne_zero.trans (not_congr (word_eq_zero_iff m).symm)

/-- ADDMOD, SUBMOD, MULMOD and POWMOD fail on a zero modulus alone (60_exceptions.md R161). -/
theorem outcomeOf_eq_err_iff_of_residue {i : Instr} (bounds : OpenBounds) (a b m : Word) (k : ErrKind)
    (hi : i = .addmod ∨ i = .submod ∨ i = .mulmod ∨ i = .powmod) :
    outcomeOf bounds i a b m = .err k ↔ m = 0#64 ∧ k = .divideByZero := by
  have tested (v : Word) :
      (if m = 0#64 then CmdOutcome.err .divideByZero else .ok1 v) = .err k ↔ m = 0#64 ∧ k = .divideByZero := by
    by_cases zero : m = 0#64 <;> simp [zero, eq_comm (b := k)]
  obtain rfl | rfl | rfl | rfl := hi <;> exact tested _

/-- EGCD fails on a zero modulus unless it ends in its base case (60_exceptions.md R161). -/
theorem egcdOutcome_eq_err_iff (a b m : Word) (k : ErrKind) :
    egcdOutcome a b m = .err k ↔ m = 0#64 ∧ a ≠ 0#64 ∧ k = .divideByZero := by
  by_cases base : a = 0#64
  · rw [egcdOutcome_of_zero b m base]
    simp [base]
  by_cases zero : m = 0#64
  · have fails : egcd a.toNat b.toNat m.toNat = .error .divideByZero :=
      (word_eq_zero_iff m).1 zero ▸ egcd_zero_modulus b.toNat (mt (word_eq_zero_iff a).2 base)
    rw [egcdOutcome_of_error fails]
    simp [zero, base, eq_comm]
  · obtain ⟨g, x, y, value, _⟩ := egcd_ok a.toNat b.toNat ((one_le_toNat_iff m).2 zero)
    simp [egcdOutcome_of_ok value, zero]

/-- MODINV fails on a zero modulus, and on a common factor of the reduced operand with the modulus (60_exceptions.md
R161, R162). -/
theorem modinvOutcome_eq_err_iff (a m : Word) (k : ErrKind) :
    modinvOutcome a m = .err k ↔
      (m = 0#64 ∧ k = .divideByZero) ∨
      (m ≠ 0#64 ∧ Nat.gcd (a.toNat % m.toNat) m.toNat ≠ 1 ∧ k = .noInverse) := by
  by_cases zero : m = 0#64
  · simp [modinvOutcome, zero, eq_comm]
  have hm := (one_le_toNat_iff m).2 zero
  rw [(Nat.mod_modEq a.toNat m.toNat).gcd_eq]
  by_cases coprime : Nat.gcd a.toNat m.toNat = 1
  · obtain ⟨x, value, _⟩ := modinv_of_coprime hm coprime
    simp [modinvOutcome_of_ok hm value, zero, coprime]
  · simp [modinvOutcome_of_error hm (modinv_of_not_coprime hm coprime), zero, coprime, eq_comm]

/-- DIVMOD fails on a zero divisor, and with any other as MODINV of the divisor does (60_exceptions.md R161, R162). -/
theorem divmodOutcome_eq_err_iff (a b m : Word) (k : ErrKind) :
    divmodOutcome a b m = .err k ↔
      (b = 0#64 ∧ k = .divideByZero) ∨ (b ≠ 0#64 ∧ modinvOutcome b m = .err k) := by
  by_cases divisor : b = 0#64
  · rw [divmodOutcome_of_zero a divisor]
    simp [divisor, eq_comm]
  by_cases zero : m = 0#64
  · simp [divmodOutcome, modinvOutcome, divisor, zero]
  have hm := (one_le_toNat_iff m).2 zero
  cases value : modinv b.toNat m.toNat with
  | error j => simp [divmodOutcome_of_modinv_error a hm divisor value, modinvOutcome_of_error hm value, divisor]
  | ok x => simp [divmodOutcome_of_inverse a hm divisor value, modinvOutcome_of_ok hm value, divisor]

/-! ## The rules about errors -/

/-- Settles O31: a completion whose `ERR` is not 0 has an error for its outcome. -/
theorem errorWritesStatusOnly : Obligations.ErrorWritesStatusOnly := by
  intro i s t ht err
  obtain rfl : s.complete (outcomeOf s.bounds i s.a s.b s.m) = t := by simpa [exec_eq_complete] using ht
  exact complete_eq_of_err_ne_zero err

/-- Settles O32: each command's errors, at the kind with code 1. -/
theorem divideByZeroCauses : Obligations.DivideByZeroCauses := by
  intro i s
  obtain ⟨t, ht, err⟩ := exec_err_eq_errCode_iff i s .divideByZero
  refine ⟨t, ht, err.trans ?_⟩
  cases i with
  | addmod | submod | mulmod | powmod => simp [outcomeOf_eq_err_iff_of_residue]
  | egcd => simp [outcomeOf, egcdOutcome_eq_err_iff]
  | modinv => simp [outcomeOf, modinvOutcome_eq_err_iff]
  | divmod => simp [outcomeOf, divmodOutcome_eq_err_iff, modinvOutcome_eq_err_iff, or_and_left, em]
  | isprime | isqrt | issquare => simp [outcomeOf, isprimeOutcome, isqrtOutcome, issquareOutcome]

/-- Settles O33: each command's errors, at the kind with code 2. -/
theorem noInverseCauses : Obligations.NoInverseCauses := by
  intro i s
  obtain ⟨t, ht, err⟩ := exec_err_eq_errCode_iff i s .noInverse
  refine ⟨t, ht, err.trans ?_⟩
  cases i with
  | addmod | submod | mulmod | powmod => simp [outcomeOf_eq_err_iff_of_residue]
  | egcd => simp [outcomeOf, egcdOutcome_eq_err_iff]
  | modinv => simp [outcomeOf, modinvOutcome_eq_err_iff, one_le_toNat_iff]
  | divmod => simp [outcomeOf, divmodOutcome_eq_err_iff, modinvOutcome_eq_err_iff, one_le_toNat_iff]
  | isprime | isqrt | issquare => simp [outcomeOf, isprimeOutcome, isqrtOutcome, issquareOutcome]

end Sys2Proof.Machine

namespace Sys2Proof.Machine

/-! The statements of 70_reset_and_hazards.md: what a reset leaves, and that a busy block becomes idle. -/

/-- Settles O14: the step is the reset event, which writes the reset values over the register file alone. -/
theorem resetZeroesEveryRegister : Obligations.ResetZeroesEveryRegister := by
  refine ⟨fun s hm => ⟨_, step_reset hm, ?_⟩, ?_⟩
  · simp
  · simp [State.reset, Regs.reset]

/-- The engine or the reset source leaves the block idle (10_state.md R18). -/
theorem step_idles_of_not_host {s t : State} (h : step s = .next t) (hm : nextMover s ≠ .host) : t.busy = false := by
  obtain ⟨_, engine, reset, _⟩ := busySpansAcceptToComplete s t h
  cases mover : nextMover s with
  | host => exact absurd mover hm
  | engine => exact engine mover
  | reset => exact reset mover

/-- Settles O26, by induction on the turns listed: a step of the engine or the reset source leaves the block idle, a
host turn leaves it busy with one turn less, and with no turn left the engine moves. -/
theorem busyBlockCompletes : Obligations.BusyBlockCompletes := by
  intro s busy hw
  induction hts : s.turns generalizing s with
  | nil =>
    obtain ⟨t, ht⟩ := step_of_script_wf hw
    have idle : t.busy = false := step_idles_of_not_host ht (by simp [nextMover, hts, busy])
    exact ⟨1, Nat.le_add_left .., t, (run_one s).trans ht, idle⟩
  | cons turn ts ih =>
    obtain ⟨t, ht⟩ := step_of_script_wf hw
    by_cases hm : nextMover s = .host
    · obtain ⟨busy', _⟩ := step_host_busy ht busy hm
      obtain ⟨n, hn, u, run, idle⟩ := ih t busy' (step_keeps_script_wf ht hw) (by simp [step_uses_turn ht, hts])
      exact ⟨n + 1, Nat.succ_le_succ hn, u, (run_succ ht n).trans run, idle⟩
    · exact ⟨1, Nat.le_add_left .., t, (run_one s).trans ht, step_idles_of_not_host ht hm⟩

end Sys2Proof.Machine
